-- ==== Sys2Proof/Word.lean ====
section
/-! DEFINITION. The word of the packer and its plainest arithmetic (00_scope.md R6, R10, R11).

Every quantity of this hardware is a natural number (R11): a word of width `W` is a number in `[0, 2^W)`,
with `W` a parameter of the machine, so a word is a `Nat` and the bound is an invariant (log entry 4).
The shifts and the OR are those of the naturals: unbounded, never undefined (R11). -/

namespace Sys2Proof

/-- A word: a natural number below `2^W` (00_scope.md R6). -/
abbrev Word := Nat

/-- The symbol alphabet is fixed: one byte, 256 possible values (00_scope.md R9). -/
abbrev Symbol := BitVec 8

/-- One command word on the command port, format CMD, 10 bits (30_encoding.md R57). -/
abbrev CommandWord := BitVec 10

/-- The low `W` bits of a number: the spec's `trunc_W` (00_scope.md R11). -/
def trunc (W v : Nat) : Word := v % 2 ^ W

end Sys2Proof
end

