-- ==== Sys2Proof/Config.lean ====
section
/-! DEFINITION. What is fixed before the packer runs: the parameters `W` and `MAX_BITS` and the codeword
table (00_scope.md R6, R7; 10_state.md R22, R29). No command changes any of it. There are no free values:
the spec leaves no value of a defined operation open (45_session_laws.md R124). -/

namespace Sys2Proof

/-- The implementation parameters with their constraints (00_scope.md R6, R7): `W >= 1` is the word
width, `MAX_BITS >= 1` the largest codeword length. The proofs stand in the record so that a packer with
word width 0 cannot be written down; `Params.of?` is the check that builds one from two numbers. -/
structure Params where
  W : Nat
  MAX_BITS : Nat
  W_pos : 1 ≤ W
  MAX_BITS_pos : 1 ≤ MAX_BITS
  deriving DecidableEq, Repr

/-- The defaults: the reference word width 8 and `MAX_BITS = 256` (00_scope.md R6, R7). -/
def Params.default : Params := ⟨8, 256, by decide, by decide⟩

/-- A raw table entry: format CW, a bit length and `NW` content words (10_state.md R22, 30_encoding.md R52). -/
structure RawEntry where
  length : Nat
  content : List Word
  deriving DecidableEq, Repr

/-- The codeword table: the listed symbols with their raw entries, strictly rising by symbol. A symbol that
is not listed has the zero-length sentinel, so the table is total (10_state.md R24; log entry 3). -/
abbrev Table := List (Nat × RawEntry)

/-- Everything that is fixed for the lifetime of a packer (10_state.md R22, R29; log entry 1). -/
structure Config where
  params : Params
  table : Table
  deriving DecidableEq, Repr

end Sys2Proof
end

