-- ==== Sys2Proof/Machine/Sizes.lean ====
section
/-! DEFINITION. The sizes derived from `W` and `MAX_BITS` (00_scope.md R8) and the slices of a number
(00_scope.md R10). -/

namespace Sys2Proof

/-- `ceil(log2 n)`: the least `k` with `n <= 2^k`, for `n >= 1` (00_scope.md R8). -/
def ceilLog2 (n : Nat) : Nat := if n ≤ 1 then 0 else Nat.log2 (n - 1) + 1

/-- `NW = ceil(MAX_BITS / W)`: how many words a codeword's content holds (00_scope.md R8). -/
def Params.NW (p : Params) : Nat := (p.MAX_BITS + p.W - 1) / p.W

/-- `LEN_BITS = ceil(log2(MAX_BITS + 1))`: the width of a length field (00_scope.md R8). -/
def Params.LEN_BITS (p : Params) : Nat := ceilLog2 (p.MAX_BITS + 1)

/-- `OFF_BITS = ceil(log2 W)`: the width of the offset register (00_scope.md R8). -/
def Params.OFF_BITS (p : Params) : Nat := ceilLog2 p.W

/-- `NMAX = floor((W - 1 + MAX_BITS) / W)`: the most words one merge can emit (00_scope.md R8). -/
def Params.NMAX (p : Params) : Nat := (p.W - 1 + p.MAX_BITS) / p.W

/-- `NSYM = 256`: how many symbols, and table entries, there are (00_scope.md R9). -/
def NSYM : Nat := 256

/-- The parameters as a checked pair of numbers: start-up step (1) (70_reset_and_hazards.md R153). -/
def Params.of? (w maxBits : Nat) : Option Params :=
  if h : 1 ≤ w ∧ 1 ≤ maxBits then some ⟨w, maxBits, h.1, h.2⟩ else none

/-- The spec's `v[hi:lo]` (00_scope.md R10). -/
def slice (v hi lo : Nat) : Nat := v / 2 ^ lo % 2 ^ (hi - lo + 1)

/-- The word `V[j*W + W-1 : j*W]`: the `j`-th `W`-bit word of a number, lowest first. -/
def wordSlice (W V j : Nat) : Word := slice V (j * W + W - 1) (j * W)

/-- The first `n` words of a number, lowest first. -/
def sliceWords (W V n : Nat) : List Word := (List.range n).map (wordSlice W V)

end Sys2Proof
end

