-- ==== Sys2Proof/Machine/TableSpace.lean ====
section
/-! DEFINITION. The table space (20_memory.md R34, R35, R38): what an entry reads as, the caller's construction
of a table, and the construction-time check (60_exceptions.md R128). -/

namespace Sys2Proof

/-- The zero-length sentinel "no code assigned", with `NW` zero content words: what a symbol that the table
does not list reads as (10_state.md R24; log entry 3). -/
def RawEntry.sentinel (p : Params) : RawEntry := ⟨0, List.replicate p.NW 0⟩

/-- A raw entry from its length and its first content words; the words not given are 0. -/
def RawEntry.ofWords (p : Params) (length : Nat) (words : List Word) : RawEntry :=
  ⟨length, words ++ List.replicate (p.NW - words.length) 0⟩

/-- The entry of a symbol: a total map, the sentinel where nothing is listed (10_state.md R22, R24). -/
def Table.read (p : Params) : Table → Nat → RawEntry
  | [], _ => RawEntry.sentinel p
  | (k, e) :: rest, sym => if k = sym then e else Table.read p rest sym

/-- The caller's construction of a table, one entry at a time, before packing begins (20_memory.md R38: the
packer itself never writes the table space). It keeps the canonical form: an entry equal to the sentinel is
not listed. -/
def Table.write (p : Params) (sym : Nat) (e : RawEntry) : Table → Table
  | [] => if e = RawEntry.sentinel p then [] else [(sym, e)]
  | (k, e') :: rest =>
    if k < sym then (k, e') :: Table.write p sym e rest
    else
      let above := if k = sym then rest else (k, e') :: rest
      if e = RawEntry.sentinel p then above else (sym, e) :: above

/-- The canonical form of the table list: symbols strictly rising from `lo`, below 256, and no listed entry
equal to what an unlisted symbol reads as (log entry 3). -/
def Table.canonicalFrom (p : Params) : Nat → Table → Bool
  | _, [] => true
  | lo, (k, e) :: rest =>
    decide (lo ≤ k) && decide (k < NSYM) && decide (e ≠ RawEntry.sentinel p) && Table.canonicalFrom p (k + 1) rest

/-- The answer of the table check (60_exceptions.md R128, R129): accepted, or `CODEWORD_TOO_LONG` with the
lowest offending symbol. It is given where the table is built, never on the response port. -/
inductive TableVerdict where
  /-- Every entry has `length <= MAX_BITS`. -/
  | accepted
  /-- `CODEWORD_TOO_LONG(s)`. -/
  | codewordTooLong (sym : Nat)
  deriving DecidableEq, Repr

/-- `TableCheck(T)` (60_exceptions.md R128): the symbols in ascending order, refusing the first whose entry is
longer than `MAX_BITS`. -/
def tableCheck (cfg : Config) : TableVerdict :=
  match (List.range NSYM).find? (fun s => decide (cfg.params.MAX_BITS < (cfg.table.read cfg.params s).length)) with
  | none => .accepted
  | some s => .codewordTooLong s

end Sys2Proof
end

