-- ==== Sys2Proof/Syntax.lean ====
section
/-! DEFINITION. The commands, one constructor per row of spec/opcode_table.json (30_encoding.md R59). -/

namespace Sys2Proof

/-- The four operations of the packer. Each keeps the eight bits `cmd[7:0]` of its command word: `MERGE`
looks that symbol up, `FLUSH` and `INIT` ignore it, `RSVD3` copies it into its response
(30_encoding.md R57, R59, R67; log entry 12). -/
inductive Instr where
  /-- `MERGE sym` (41_merge.md R89). -/
  | merge (sym : Symbol)
  /-- `FLUSH`, with its ignored `sym` field (42_flush_init.md R98). -/
  | flush (sym : Symbol)
  /-- `INIT`, with its ignored `sym` field (42_flush_init.md R103). -/
  | init (sym : Symbol)
  /-- `RSVD3`, the reserved command (42_flush_init.md R106). -/
  | rsvd3 (sym : Symbol)
  deriving DecidableEq, Repr

end Sys2Proof
end

