-- ==== Sys2Proof/WellFormed.lean ====
section
/-! DEFINITION. Well-formedness of instructions and of the configuration. -/

namespace Sys2Proof

/-- Every command term is well formed: "Every 8-bit value is a legal symbol operand" (30_encoding.md R58), and
the ignored `sym` fields may hold anything (30_encoding.md R67). -/
def Instr.wf : Instr → Bool
  | .merge _ => true
  | .flush _ => true
  | .init _ => true
  | .rsvd3 _ => true

/-- A raw entry has the shape of format CW: `NW` content words, each below `2^W` (30_encoding.md R52). The bits
past `length` may hold anything (30_encoding.md R54). -/
def RawEntry.typed (p : Params) (e : RawEntry) : Bool :=
  decide (e.content.length = p.NW) && e.content.all (fun v => decide (v < 2 ^ p.W))

/-- The table is in its canonical form and each listed entry has the shape of format CW. -/
def Table.wf (p : Params) (t : Table) : Bool :=
  t.canonicalFrom p 0 && t.all (fun c => c.2.typed p)

/-- A well-formed configuration: the table has its form and has passed `TableCheck`
(10_state.md R23; 70_reset_and_hazards.md R152). -/
def Config.wf (cfg : Config) : Bool :=
  cfg.table.wf cfg.params && decide (tableCheck cfg = .accepted)

end Sys2Proof
end

