-- ==== Sys2Proof/Decode.lean ====
section
/-! DEFINITION. The decoder and the encoder of format CMD (30_encoding.md R57 to R60, R65, R66). -/

namespace Sys2Proof

/-- The operation selector `op = cmd[9:8]` (30_encoding.md R57). -/
def opField (w : CommandWord) : BitVec 2 := w.extractLsb' 8 2

/-- The symbol operand `sym = cmd[7:0]` (30_encoding.md R57, R58). -/
def symField (w : CommandWord) : Symbol := w.extractLsb' 0 8

/-- Decode, total on the 1024 command words, by `op` alone (30_encoding.md R59, R60). -/
def decode (w : CommandWord) : Instr :=
  if opField w = 0 then .merge (symField w)
  else if opField w = 1 then .flush (symField w)
  else if opField w = 2 then .init (symField w)
  else .rsvd3 (symField w)

/-- The command word of an instruction: the operation selector above the symbol field (30_encoding.md R57, R59). -/
def encode : Instr → CommandWord
  | .merge sym => (0 : BitVec 2) ++ sym
  | .flush sym => (1 : BitVec 2) ++ sym
  | .init sym => (2 : BitVec 2) ++ sym
  | .rsvd3 sym => (3 : BitVec 2) ++ sym

/-- Why a number given from outside is no command: the port takes 10 bits (30_encoding.md R57). -/
inductive DecodeReject where
  /-- The number does not fit in a command word. -/
  | notACommandWord (w : Nat)
  deriving DecidableEq, Repr

/-- Decode a number given from outside (the assembler's `.cmd n`, 30_encoding.md R70): a command word, or
rejected by name when it has a bit above bit 9. -/
def decodeRaw (w : Nat) : Except DecodeReject Instr :=
  if w < 2 ^ 10 then .ok (decode (BitVec.ofNat 10 w)) else .error (.notACommandWord w)

/-- The instruction the decoder reads from a table word: bit 0 is bit 0 of the command word
(30_encoding.md R57). A word with a set bit above bit 9 is no command word (log entry 11). -/
def decodeTableWord (nbits w : Nat) : Option Instr :=
  match decodeRaw (w % 2 ^ nbits) with
  | .ok i => some i
  | .error _ => none

/-- One row of the opcode table: the word's bits under the mask are the pattern (30_encoding.md R60, R65). -/
structure OpcodeRow where
  mnemonic : String
  pattern : CommandWord
  mask : CommandWord
  deriving DecidableEq, Repr

/-- The four rows of spec/opcode_table.json (30_encoding.md R65). -/
def opcodeTable : List OpcodeRow :=
  [⟨"MERGE", 0x000, 0x300⟩, ⟨"FLUSH", 0x100, 0x300⟩, ⟨"INIT", 0x200, 0x300⟩, ⟨"RSVD3", 0x300, 0x300⟩]

/-- The mnemonic of an instruction, as the opcode table spells it. -/
def Instr.mnemonic : Instr → String
  | .merge _ => "MERGE"
  | .flush _ => "FLUSH"
  | .init _ => "INIT"
  | .rsvd3 _ => "RSVD3"

end Sys2Proof
end

