-- ==== Sys2Proof/Machine/State.lean ====
section
/-! DEFINITION. The machine's state as plain data (10_state.md R17 to R33), the reasons a step can stop, and
the state right after power-on. -/

namespace Sys2Proof.Machine

/-- The status codes of the response port and of the table check (30_encoding.md R61, 60_exceptions.md R125). -/
inductive Status where
  /-- 0: no error. -/
  | ok
  /-- 1: `MERGE` of a symbol whose entry has length 0 (60_exceptions.md R126). -/
  | unassignedSymbol
  /-- 2: a command word with `op = 0b11` (60_exceptions.md R130). -/
  | illegalCommand
  /-- 3: kept for the table check, never produced on the response port (60_exceptions.md R129). -/
  | codewordTooLong
  deriving DecidableEq, Repr

/-- One response: the pair `Respond(status, info)` delivers (30_encoding.md R61). -/
structure Response where
  status : Status
  info : BitVec 8
  deriving DecidableEq, Repr

/-- One move of the caller, as the packer takes them between commands: a command word on the command port
(30_encoding.md R57) or the reset input (70_reset_and_hazards.md R148, R149). -/
inductive Input where
  /-- One command word is presented. -/
  | command (word : CommandWord)
  /-- Reset is asserted between two commands. -/
  | reset
  deriving DecidableEq, Repr

/-- The accumulator: the only registers of the packer (10_state.md R17, R18, R19). -/
structure Accumulator where
  buffer : Word
  offset : Nat
  deriving DecidableEq, Repr

/-- The initial state of the accumulator, `(0, 0)` (10_state.md R31). -/
def Accumulator.initial : Accumulator := ⟨0, 0⟩

/-- The state: the fixed configuration, the accumulator, the two histories of what was handed over
(10_state.md R25, R26), and the model's own list of what the caller will present next, oldest first
(10_state.md R27; log entry 5). The last field types the offset as a number below `W` (10_state.md R19): a state
whose offset is `W` or more cannot be written down (log entry 4). -/
structure State where
  cfg : Config
  acc : Accumulator
  out : List Word
  resp : List Response
  inputs : List Input
  offset_lt : acc.offset < cfg.params.W
  deriving DecidableEq, Repr

/-- Why a step stops. -/
inductive Fault where
  /-- Raised by `MERGE` alone, when it reads a raw entry longer than `MAX_BITS`: a table that was never checked
  (93_implementation_defined.md U7 asks for this fault). Safe: a checked table never raises it (log entry 7). -/
  | codewordTooLong (sym : Symbol)
  deriving DecidableEq, Repr

/-- Why a step is refused. No step of this model is: every command has its meaning. -/
inductive Refusal where
  /-- Kept for an instruction without a meaning; no arm of `exec` answers it. Safe. -/
  | notModelled (mnemonic : String)
  deriving DecidableEq, Repr

/-- A packer at power-on: the accumulator in its initial state, both histories empty, nothing presented yet
(10_state.md R25, R26, R31, R32; 70_reset_and_hazards.md R147). -/
def State.powerOn (cfg : Config) : State := ⟨cfg, Accumulator.initial, [], [], [], cfg.params.W_pos⟩

/-- The machine right after reset: the default parameters and a table in which the caller has assigned no
symbol (10_state.md R31, R32; the table's value is the model's choice, log entry 2). -/
def State.reset : State := State.powerOn ⟨Params.default, []⟩

/-- The number of commands accepted so far, a ghost count (10_state.md R27). -/
def State.ncmd (s : State) : Nat := s.resp.length

end Sys2Proof.Machine
end

