-- ==== Sys2Proof/Machine/Flags.lean ====
section
/-! DEFINITION. The packer has no flags (10_state.md R28). This file holds the conditions its operations test and
store nowhere. -/

namespace Sys2Proof.Machine

/-- "nothing pending": `offset = 0` (10_state.md R28, 42_flush_init.md R98). -/
def nothingPending (a : Accumulator) : Bool := a.offset == 0

/-- "unassigned": `length = 0`, whatever the content holds (30_encoding.md R55, 40_lookup.md R75). -/
def isUnassigned (e : RawEntry) : Bool := e.length == 0

/-- An entry the table check refuses: `length > MAX_BITS` (60_exceptions.md R128). -/
def isTooLong (p : Params) (e : RawEntry) : Bool := decide (p.MAX_BITS < e.length)

end Sys2Proof.Machine
end

