-- ==== Sys2Proof/Machine/Operands.lean ====
section
/-! DEFINITION. Operand assembly: the table index of MERGE (30_encoding.md R63), the table read
(20_memory.md R35), the packed table row (30_encoding.md R56, R64) and the lookup stage (40_lookup.md). -/

namespace Sys2Proof.Machine

/-- The table index: the symbol field zero-extended, used as is (30_encoding.md R58, R63). -/
def tableIndex (sym : Symbol) : Nat := sym.toNat

/-- `TblRead(sym)`: the raw entry of a symbol, a pure function of the symbol and the table (20_memory.md R35). -/
def tblRead (cfg : Config) (sym : Symbol) : RawEntry := cfg.table.read cfg.params (tableIndex sym)

/-- Word `j` of the masked codeword: the bits of `content[j]` at codeword positions below `length`, 0 above
(40_lookup.md R76). -/
def maskWord (p : Params) (e : RawEntry) (j : Nat) : Word :=
  trunc (min p.W (e.length - j * p.W)) (e.content.getD j 0)

/-- `mask(e)`: the `NW` masked content words (40_lookup.md R76). -/
def mask (p : Params) (e : RawEntry) : List Word := (List.range p.NW).map (maskWord p e)

/-- `mword(m, j)`: masked words by index, 0 at `j >= NW` (40_lookup.md R78). -/
def mword (p : Params) (m : List Word) (j : Nat) : Word := if j < p.NW then m.getD j 0 else 0

/-- What the lookup stage answers (40_lookup.md R74). The third answer arises only for a table that
`TableCheck` would have refused (93_implementation_defined.md U7). -/
inductive LookupResult where
  /-- The entry has length 0. -/
  | unassigned
  /-- The length and the masked words of an assigned symbol. -/
  | assigned (len : Nat) (m : List Word)
  /-- The entry is longer than `MAX_BITS`: the table is ill-formed. -/
  | tooLong
  deriving DecidableEq, Repr

/-- `LOOKUP(sym)` (40_lookup.md R74): read the raw entry, test its length, mask it. -/
def lookup (cfg : Config) (sym : Symbol) : LookupResult :=
  let e := tblRead cfg sym
  if isUnassigned e then .unassigned
  else if isTooLong cfg.params e then .tooLong
  else .assigned e.length (mask cfg.params e)

/-- A packed table row, format TBL: `length` in the low `LEN_BITS` bits, then the content words, word 0 lowest
(30_encoding.md R56). -/
def packRow (p : Params) (e : RawEntry) : Nat :=
  e.length + 2 ^ p.LEN_BITS * e.content.foldr (fun v rest => v + 2 ^ p.W * rest) 0

/-- The entry that a packed row holds: `length = r[LEN_BITS-1:0]`,
`content[j] = r[LEN_BITS + j*W + W-1 : LEN_BITS + j*W]` (30_encoding.md R64). -/
def unpackRow (p : Params) (r : Nat) : RawEntry :=
  ⟨r % 2 ^ p.LEN_BITS,
    (List.range p.NW).map fun j => slice r (p.LEN_BITS + j * p.W + p.W - 1) (p.LEN_BITS + j * p.W)⟩

end Sys2Proof.Machine
end

