-- ==== Sys2Proof/Machine/Ports.lean ====
section
/-! DEFINITION. The encodings of the response port (30_encoding.md R61) and the bit order of the output port
(20_memory.md R39, R40; 30_encoding.md R62). -/

namespace Sys2Proof.Machine

/-- The status numbers (30_encoding.md R61). -/
def Status.code : Status → BitVec 2
  | .ok => 0
  | .unassignedSymbol => 1
  | .illegalCommand => 2
  | .codewordTooLong => 3

/-- The status of a number (30_encoding.md R61). -/
def Status.ofCode (c : BitVec 2) : Status :=
  if c = 0 then .ok else if c = 1 then .unassignedSymbol else if c = 2 then .illegalCommand else .codewordTooLong

/-- The response word, format RSP: `status` in bits 9..8, `info` in bits 7..0 (30_encoding.md R61). -/
def Response.word (r : Response) : BitVec 10 := r.status.code ++ r.info

/-- The response a response word holds (30_encoding.md R61). -/
def Response.ofWord (w : BitVec 10) : Response := ⟨Status.ofCode (w.extractLsb' 8 2), w.extractLsb' 0 8⟩

/-- The bits of one output word in stream order: bit 0 first (20_memory.md R39). -/
def wordBits (W : Nat) (v : Word) : List Bool := (List.range W).map v.testBit

/-- The bits of a sequence of output words in stream order: the earlier word holds the earlier bits
(20_memory.md R40). -/
def streamBits (W : Nat) (ws : List Word) : List Bool := ws.flatMap (wordBits W)

end Sys2Proof.Machine
end

