-- ==== Sys2Proof/Machine/Ops.lean ====
section
/-! DEFINITION. The named operations on the state: the output and response ports, error entry, the
accumulator, reset, and taking the caller's next input. -/

namespace Sys2Proof.Machine

/-- `Emit(v)`: append one word to the output stream; it cannot fail and cannot block (20_memory.md R36). -/
def emit (v : Word) (s : State) : State := { s with out := s.out ++ [v] }

/-- The words of one command, emitted in order (20_memory.md R47): `Emit` of each, by `emitAll_cons`. -/
def emitAll (ws : List Word) (s : State) : State := { s with out := s.out ++ ws }

/-- `Respond(status, info)`: append one response (30_encoding.md R61). -/
def respond (status : Status) (info : BitVec 8) (s : State) : State :=
  { s with resp := s.resp ++ [⟨status, info⟩] }

/-- Error entry, `raise E(info)` (60_exceptions.md R134): no word, no register, nothing saved, no control
transfer; the error's response is delivered and the packer is ready for the next command. There is no return
operation beside it, because there is no handler inside the packer (60_exceptions.md R135). -/
def raiseError (status : Status) (info : BitVec 8) (s : State) : State := respond status info s

/-- Write both registers of the accumulator; the offset written is a number below `W` (10_state.md R19). -/
def setAcc (a : Accumulator) (s : State) (h : a.offset < s.cfg.params.W) : State := { s with acc := a, offset_lt := h }

/-- Put the accumulator in its initial state (10_state.md R31). -/
def clearAcc (s : State) : State := setAcc Accumulator.initial s s.cfg.params.W_pos

/-- The effect of the reset input between two commands: that of `INIT` without a response; the table and the
histories are untouched (70_reset_and_hazards.md R148, R150). -/
def applyReset (s : State) : State := clearAcc s

/-- The caller presents further inputs, after those already presented (10_state.md R27; log entry 5). -/
def deliver (more : List Input) (s : State) : State := { s with inputs := s.inputs ++ more }

/-- Take the caller's next input from the port, if there is one. -/
def takeInput (s : State) : Option (Input × State) :=
  match s.inputs with
  | [] => none
  | x :: rest => some (x, { s with inputs := rest })

end Sys2Proof.Machine
end

