-- ==== Sys2Proof/Machine/FlushInit.lean ====
section
/-! DEFINITION. `FLUSH`, `INIT` and the reserved command `RSVD3` (42_flush_init.md). -/

namespace Sys2Proof.Machine

/-- `FLUSH` (42_flush_init.md R98): emit the pending partial word, if any, exactly as the buffer holds it; return
to the initial state; answer OK. The `sym` field is ignored (30_encoding.md R67). -/
def execFlush (_sym : Symbol) (s : State) : Host.Outcome State Fault Refusal :=
  .next (respond .ok 0 (clearAcc (if nothingPending s.acc then s else emit s.acc.buffer s)))

/-- `INIT` (42_flush_init.md R103): return to the initial state without emitting; answer OK. The `sym` field is
ignored (30_encoding.md R67). -/
def execInit (_sym : Symbol) (s : State) : Host.Outcome State Fault Refusal :=
  .next (respond .ok 0 (clearAcc s))

/-- `RSVD3` (42_flush_init.md R106): the illegal-command response with `cmd[7:0]`, nothing else. -/
def execRsvd3 (sym : Symbol) (s : State) : Host.Outcome State Fault Refusal :=
  .next (raiseError .illegalCommand sym s)

end Sys2Proof.Machine
end

