-- ==== Sys2Proof/Machine/Merge.lean ====
section
/-! DEFINITION. `MERGE` (41_merge.md R81 to R95). -/

namespace Sys2Proof.Machine

/-- Step 2: the number of complete words this merge emits, `(off + len) div W` (41_merge.md R83). -/
def mergeCount (p : Params) (off len : Nat) : Nat := (off + len) / p.W

/-- Step 3: the word emitted from the running buffer `b` and content word `w`, truncated to `W` bits
(41_merge.md R84). -/
def mergeWord (p : Params) (off : Nat) (m : List Word) (w : Nat) (b : Word) : Word :=
  trunc p.W (b ||| (mword p m w <<< off))

/-- Step 3: the carry out of content word `w`. At offset 0 it is 0 by an explicit condition, so the shift by the
full word width is never evaluated (41_merge.md R85, R86; 90_conflicts.md C1). -/
def mergeCarry (p : Params) (off : Nat) (m : List Word) (w : Nat) : Word :=
  if off = 0 then 0 else mword p m w >>> (p.W - off)

/-- The loop of step 3 with `k` iterations left, at word index `w`, with the running buffer `b`: the words
emitted, in order, and the buffer after the last (41_merge.md R84 to R86, R89). -/
def mergeLoop (p : Params) (off : Nat) (m : List Word) : Nat → Nat → Word → List Word × Word
  | 0, _, b => ([], b)
  | k + 1, w, b =>
    let r := mergeLoop p off m k (w + 1) (mergeCarry p off m w)
    (mergeWord p off m w b :: r.1, r.2)

/-- Step 4: the tail of the codeword merged into the buffer (41_merge.md R87). -/
def mergeTail (p : Params) (off : Nat) (m : List Word) (n : Nat) (b : Word) : Word :=
  b ||| trunc p.W (mword p m n <<< off)

/-- Steps 2 to 5 for an assigned symbol of length `len` with masked words `m` (41_merge.md R89). -/
def mergeCodeword (len : Nat) (m : List Word) (s : State) : State :=
  let p := s.cfg.params
  let off := s.acc.offset
  let n := mergeCount p off len
  let loop := mergeLoop p off m n 0 s.acc.buffer
  let t := emitAll loop.1 s
  setAcc ⟨mergeTail p off m n loop.2, (off + len) % p.W⟩ t (show _ < t.cfg.params.W from Nat.mod_lt _ p.W_pos)

/-- `MERGE sym` (41_merge.md R89): reject an unassigned symbol before any write (R82), else merge its
codeword and answer OK. A table that was never checked faults on an entry that is too long (log entry 7). -/
def execMerge (sym : Symbol) (s : State) : Host.Outcome State Fault Refusal :=
  match lookup s.cfg sym with
  | .unassigned => .next (raiseError .unassignedSymbol sym s)
  | .tooLong => .fault (.codewordTooLong sym)
  | .assigned len m => .next (respond .ok 0 (mergeCodeword len m s))

end Sys2Proof.Machine
end

