-- ==== Sys2Proof/Machine/Dispatch.lean ====
section
/-! DEFINITION. One arm per command, each a direct call of its meaning. -/

namespace Sys2Proof.Machine

def exec (i : Instr) (s : State) : Host.Outcome State Fault Refusal :=
  match i with
  | .merge sym => Sys2Proof.Machine.execMerge sym s
  | .flush sym => Sys2Proof.Machine.execFlush sym s
  | .init sym => Sys2Proof.Machine.execInit sym s
  | .rsvd3 sym => Sys2Proof.Machine.execRsvd3 sym s

end Sys2Proof.Machine
end

