-- ==== Sys2Proof/Machine/Step.lean ====
section
/-! DEFINITION. One step: one accepted command, or one reset between commands (92_eei_decisions.md D4). -/

namespace Sys2Proof.Machine

/-- One step of the packer. It takes the caller's next input: a command is decoded and executed to completion
(20_memory.md R46), a reset has its effect (70_reset_and_hazards.md R148). With nothing presented the packer
waits and nothing changes (10_state.md R21; log entry 6). -/
def step (s : State) : Host.Outcome State Fault Refusal :=
  match takeInput s with
  | none => .next s
  | some (.command w, t) => exec (decode w) t
  | some (.reset, t) => .next (applyReset t)

/-- The state in which the caller presents the given command word next, ahead of anything it had already
presented (log entries 5 and 11). -/
def State.withFetchWord (s : State) (nbits w : Nat) : State :=
  { s with inputs := .command (BitVec.ofNat 10 (w % 2 ^ nbits)) :: s.inputs }

end Sys2Proof.Machine
end

