-- ==== Sys2Proof/Machine/Assembler.lean ====
section
/-! DEFINITION. The spec's assembly notation (30_encoding.md R70, R71), as terms, and the command words each
line assembles to. -/

namespace Sys2Proof.Machine

/-- One line of an assembly text (30_encoding.md R70, R71). -/
inductive AsmLine where
  /-- `MERGE <number>`. -/
  | merge (n : Nat)
  /-- `MERGE '<c>'`: the character's byte value. -/
  | mergeChar (c : Char)
  /-- `FLUSH`. -/
  | flush
  /-- `INIT`. -/
  | init
  /-- `.cmd <n>`: a raw command word. -/
  | cmd (n : Nat)
  /-- `PACK "<string>"`: one `MERGE` per character. -/
  | pack (cs : List Char)
  /-- `CHUNK`: a mark for the reader. -/
  | chunk
  /-- `END`: a `FLUSH`. -/
  | finish
  deriving DecidableEq, Repr

/-- The byte value of a printable ASCII character (30_encoding.md R70, from general knowledge; log entry 18). -/
def charSymbol? (c : Char) : Option Symbol :=
  if 0x20 ≤ c.toNat ∧ c.toNat < 0x7F then some (BitVec.ofNat 8 c.toNat) else none

/-- The command words of one line, or nothing where an operand is not of the notation (30_encoding.md R70, R71). -/
def assembleLine : AsmLine → Option (List CommandWord)
  | .merge n => if n < 256 then some [encode (.merge (BitVec.ofNat 8 n))] else none
  | .mergeChar c => (charSymbol? c).map fun sym => [encode (.merge sym)]
  | .flush => some [encode (.flush 0)]
  | .init => some [encode (.init 0)]
  | .cmd n => if n < 1024 then some [BitVec.ofNat 10 n] else none
  | .pack cs => cs.mapM fun c => (charSymbol? c).map fun sym => encode (.merge sym)
  | .chunk => some []
  | .finish => some [encode (.flush 0)]

/-- The command words of a text, line by line. -/
def assemble (lines : List AsmLine) : Option (List CommandWord) := (lines.mapM assembleLine).map List.flatten

end Sys2Proof.Machine
end

