-- ==== Sys2Proof/Machine/StartUp.lean ====
section
/-! DEFINITION. Start-up (70_reset_and_hazards.md R153) and a packer's run over what the caller presents. -/

namespace Sys2Proof.Machine

/-- Start-up steps (2) and (3): run the table check and power on. "A refused table is never given to a packer"
(60_exceptions.md R128), so a refused one gives the verdict in place of a packer. -/
def State.powerOn? (cfg : Config) : Except TableVerdict State :=
  match tableCheck cfg with
  | .accepted => .ok (State.powerOn cfg)
  | .codewordTooLong s => .error (.codewordTooLong s)

/-- Go on from an outcome only if it is a next state. -/
def andThen (o : Host.Outcome State Fault Refusal) (f : State → Host.Outcome State Fault Refusal) :
    Host.Outcome State Fault Refusal :=
  match o with
  | .next t => f t
  | .fault r => .fault r
  | .refused r => .refused r

/-- A number of steps of the packer, stopping at the first that does not answer a next state. -/
def run : Nat → State → Host.Outcome State Fault Refusal
  | 0, s => .next s
  | k + 1, s => andThen (step s) (run k)

/-- The caller's input in chunks: each chunk is delivered when everything before it has been taken, the packer runs
until it is taken, and then the caller pauses for the given number of further steps
(45_session_laws.md R112; 60_exceptions.md R146). -/
def runChunks : List (List Input × Nat) → State → Host.Outcome State Fault Refusal
  | [], s => .next s
  | (chunk, pause) :: rest, s => andThen (run (chunk.length + pause) (deliver chunk s)) (runChunks rest)

end Sys2Proof.Machine
end

