-- ==== Sys2Proof/Machine/Instances.lean ====
section
/-! DEFINITION. Several packer instances (60_exceptions.md R142 to R144; 20_memory.md R50): each has its own
accumulator, ports and histories; they share at most the read-only table. The caller decides which moves next
(log entry 15). -/

namespace Sys2Proof.Machine

/-- Packers standing side by side, by position. -/
abbrev Instances := List State

/-- A product of models with a common configuration (60_exceptions.md R143). -/
def Instances.powerOn (cfg : Config) (k : Nat) : Instances := List.replicate k (State.powerOn cfg)

/-- The outcome of a step of several packers. -/
abbrev InstancesOutcome := Host.Outcome Instances Fault Refusal

/-- Instance `j` takes one step; the others stand still. With no instance `j` nothing happens. -/
def stepInstance (j : Nat) (ss : Instances) : InstancesOutcome :=
  match ss[j]? with
  | none => .next ss
  | some s =>
    match step s with
    | .next t => .next (ss.set j t)
    | .fault r => .fault r
    | .refused r => .refused r

/-- The instances take steps in the order of a schedule. The fault of one instance, which only a table that was never
checked can raise, ends the whole schedule: DESIGN CHOICE, the spec is silent on it (log entry 15). With a checked
table no instance stops another (60_exceptions.md R143). -/
def runSchedule : List Nat → Instances → InstancesOutcome
  | [], ss => .next ss
  | j :: rest, ss =>
    match stepInstance j ss with
    | .next ts => runSchedule rest ts
    | .fault r => .fault r
    | .refused r => .refused r

end Sys2Proof.Machine
end

