-- ==== Sys2Proof/Machine/Sessions.lean ====
section
/-! DEFINITION. The vocabulary of the session laws (00_scope.md R14; 45_session_laws.md): codeword bits and
values, accepted symbols, session length and session value, and the greedy decoder of the round trip. No
command uses any of it; claims do. -/

namespace Sys2Proof.Machine

/-- `cwbit(c, k)`: bit `k mod W` of content word `k div W` (00_scope.md R14). -/
def cwbit (p : Params) (e : RawEntry) (k : Nat) : Bool := (e.content.getD (k / p.W) 0).testBit (k % p.W)

/-- The bit string of a codeword, first element earliest in the stream (00_scope.md R14). -/
def bitString (p : Params) (e : RawEntry) : List Bool := (List.range e.length).map (cwbit p e)

/-- The number whose bit `k` is the `k`-th element of a bit string. -/
def bitsValue : List Bool → Nat
  | [] => 0
  | b :: rest => b.toNat + 2 * bitsValue rest

/-- `cwval(c)`: the codeword as a number below `2^length` (00_scope.md R14). -/
def cwval (p : Params) (e : RawEntry) : Nat := bitsValue (bitString p e)

/-- The command words of a list of instructions, as inputs. -/
def commands (is : List Instr) : List Input := is.map fun i => .command (encode i)

/-- Whether a command is rejected: a `MERGE` of an unassigned symbol, or `RSVD3` (45_session_laws.md R117). -/
def isRejected (cfg : Config) : Instr → Bool
  | .merge sym => isUnassigned (tblRead cfg sym)
  | .flush _ => false
  | .init _ => false
  | .rsvd3 _ => true

/-- Whether a command belongs inside a session: anything but `FLUSH` and `INIT` (45_session_laws.md R109). -/
def staysInSession : Instr → Bool
  | .merge _ => true
  | .flush _ => false
  | .init _ => false
  | .rsvd3 _ => true

/-- The symbol a command adds to its session, if it adds one (45_session_laws.md R109). -/
def acceptedSymbol? (cfg : Config) : Instr → Option Symbol
  | .merge sym => if isUnassigned (tblRead cfg sym) then none else some sym
  | .flush _ => none
  | .init _ => none
  | .rsvd3 _ => none

/-- The accepted symbols of a session's commands, in order (45_session_laws.md R109). -/
def acceptedSymbols (cfg : Config) (is : List Instr) : List Symbol := is.filterMap (acceptedSymbol? cfg)

/-- `L = l1 + ... + ln`: the total length of the symbols' codewords (45_session_laws.md R110). -/
def sessionLength (cfg : Config) : List Symbol → Nat
  | [] => 0
  | sym :: rest => (tblRead cfg sym).length + sessionLength cfg rest

/-- `B`: the codewords laid end to end as one number, first bit at position 0 (45_session_laws.md R110). -/
def sessionValue (cfg : Config) : List Symbol → Nat
  | [] => 0
  | sym :: rest => cwval cfg.params (tblRead cfg sym) + 2 ^ (tblRead cfg sym).length * sessionValue cfg rest

/-- The symbols' bit strings laid end to end (20_memory.md R40). -/
def sessionBits (cfg : Config) (syms : List Symbol) : List Bool :=
  syms.flatMap fun sym => bitString cfg.params (tblRead cfg sym)

/-- `ceil(L / W)`: how many words a completed session of total length `L` appends (45_session_laws.md R110). -/
def sessionWordCount (p : Params) (L : Nat) : Nat := (L + p.W - 1) / p.W

/-- The words a completed session with these accepted symbols appends (45_session_laws.md R110). -/
def sessionWords (cfg : Config) (syms : List Symbol) : List Word :=
  sliceWords cfg.params.W (sessionValue cfg syms) (sessionWordCount cfg.params (sessionLength cfg syms))

/-- The responses a list of commands gets when none of them stops the machine (42_flush_init.md R107). -/
def responseOf (cfg : Config) : Instr → Response
  | .merge sym => if isUnassigned (tblRead cfg sym) then ⟨.unassignedSymbol, sym⟩ else ⟨.ok, 0⟩
  | .flush _ => ⟨.ok, 0⟩
  | .init _ => ⟨.ok, 0⟩
  | .rsvd3 sym => ⟨.illegalCommand, sym⟩

/-- The table's assigned bit strings form a prefix code: no assigned symbol's bit string begins another's
(00_scope.md R16, 45_session_laws.md R114). -/
def PrefixFree (cfg : Config) : Prop :=
  ∀ a b : Symbol, isUnassigned (tblRead cfg a) = false → isUnassigned (tblRead cfg b) = false →
    (bitString cfg.params (tblRead cfg a)).isPrefixOf (bitString cfg.params (tblRead cfg b)) = true → a = b

/-- The assigned symbol whose codeword begins the bits, if there is one (log entry 16). -/
def nextSymbol? (cfg : Config) (bits : List Bool) : Option Symbol :=
  ((List.range NSYM).map (BitVec.ofNat 8)).find? fun sym =>
    !isUnassigned (tblRead cfg sym) && (bitString cfg.params (tblRead cfg sym)).isPrefixOf bits

/-- The greedy decoder: so many symbols from the bits, each the one whose codeword comes next
(45_session_laws.md R114, from general knowledge; log entry 16). -/
def decodeSymbols (cfg : Config) : Nat → List Bool → Option (List Symbol)
  | 0, _ => some []
  | k + 1, bits =>
    match nextSymbol? cfg bits with
    | none => none
    | some sym => (decodeSymbols cfg k (bits.drop (tblRead cfg sym).length)).map (sym :: ·)

end Sys2Proof.Machine
end

