-- ==== Sys2Proof/Safety.lean ====
section
/-! DEFINITION. The premises of a claim about a run, under the spec's names (70_reset_and_hazards.md R167), and
the invariant of the machine. `SinkAccepts`, `TableStable` and `ResetBetweenCommands` have no definition here: the
model has no move that breaks them (log entries 8, 9, 10). `ParamsOk` stands in `Params`. -/

namespace Sys2Proof.Machine

/-- `TableWellFormed`: every `TABLE[s].length <= MAX_BITS` (70_reset_and_hazards.md R167, 10_state.md R23). -/
def TableWellFormed (cfg : Config) : Prop :=
  ∀ sym : Symbol, (tblRead cfg sym).length ≤ cfg.params.MAX_BITS

/-- `AccInv`: `offset < W` and `buffer < 2^offset` (70_reset_and_hazards.md R167, 10_state.md R19, R20). -/
abbrev AccInv (p : Params) (a : Accumulator) : Prop := a.offset < p.W ∧ a.buffer < 2 ^ a.offset

/-- The registers hold values of their widths: `offset < W`, which every state has by its type, and `buffer < 2^W`
(10_state.md R18, R19). This is weaker than `AccInv` (10_state.md R20). -/
abbrev AccTyped (p : Params) (a : Accumulator) : Prop := a.offset < p.W ∧ a.buffer < 2 ^ p.W

/-- `CleanEntry`: the accumulator is in the state after reset (70_reset_and_hazards.md R167). -/
abbrev CleanEntry (s : State) : Prop := s.acc = Accumulator.initial

/-- `HistoriesEmpty`: `out = []`, `resp = []` (70_reset_and_hazards.md R167). -/
abbrev HistoriesEmpty (s : State) : Prop := s.out = [] ∧ s.resp = []

/-- A response the port can carry: never status 3, and `info = 0x00` beside `OK` (30_encoding.md R61). -/
abbrev Response.legal (r : Response) : Prop :=
  r.status ≠ .codewordTooLong ∧ (r.status = .ok → r.info = 0)

/-- The invariant of the machine: a checked configuration (10_state.md R23), `INV` of the accumulator
(10_state.md R20), every emitted word a word (20_memory.md R36), every response one the port can carry
(30_encoding.md R61). -/
structure Inv (s : State) : Prop where
  cfg : s.cfg.wf = true
  acc : AccInv s.cfg.params s.acc
  out : ∀ v ∈ s.out, v < 2 ^ s.cfg.params.W
  resp : ∀ r ∈ s.resp, r.legal

/-- A safe outcome: the machine goes on (60_exceptions.md R131, 45_session_laws.md R122). -/
def GoesOn (o : Host.Outcome State Fault Refusal) : Prop := ∃ t, o = .next t

end Sys2Proof.Machine
end

