-- ==== Sys2Proof/Certificates/Slice0/Obligations.lean ====
section
/-! DEFINITION. The statements for the provers. Each docstring says which sentence of the spec it formalises. A
statement over an inference that the spec marks `[derived: ...]` names the section and cites no rule. -/

open Sys2Proof
open Sys2Proof.Machine

/-! ### Encodings -/

/-- Decoding an encoded instruction gives it back, and encoding a decoded word gives the word back: no bit of a
command word is dropped (30_encoding.md, section 3). -/
def Obligations.DecodeEncodeAgree : Prop :=
  (∀ i : Instr, i.wf = true → decode (encode i) = i) ∧ ∀ w : CommandWord, encode (decode w) = w

/-- 30_encoding.md R60: every command word matches exactly one row of the opcode table, the one its operation
selector `cmd[9:8]` names, and it is the instruction of that row with `cmd[7:0]`. -/
def Obligations.DecodeByOpField : Prop :=
  ∀ w : CommandWord,
    (opcodeTable.filter fun row => decide (w &&& row.mask = row.pattern)).map OpcodeRow.mnemonic = [(decode w).mnemonic] ∧
    (w &&& 0x300 = 0x000 ↔ decode w = .merge (BitVec.ofNat 8 (w.toNat % 256))) ∧
    (w &&& 0x300 = 0x100 ↔ decode w = .flush (BitVec.ofNat 8 (w.toNat % 256))) ∧
    (w &&& 0x300 = 0x200 ↔ decode w = .init (BitVec.ofNat 8 (w.toNat % 256))) ∧
    (w &&& 0x300 = 0x300 ↔ decode w = .rsvd3 (BitVec.ofNat 8 (w.toNat % 256))) ∧
    ∀ w' : CommandWord, w'.toNat / 256 = w.toNat / 256 → (decode w').mnemonic = (decode w).mnemonic

/-- Command words written out from the encoding of 30_encoding.md section 3 and listed in 95_test_vectors.md section 3.8
decode to what they stand for. -/
def Obligations.SpecWordsDecode : Prop :=
  decode 0x041 = .merge 0x41 ∧ decode 0x05A = .merge 0x5A ∧ decode 0x000 = .merge 0x00 ∧ decode 0x0FF = .merge 0xFF ∧
  decode 0x100 = .flush 0x00 ∧ decode 0x141 = .flush 0x41 ∧ decode 0x200 = .init 0x00 ∧ decode 0x2FF = .init 0xFF ∧
  decode 0x341 = .rsvd3 0x41 ∧ decode 0x3A7 = .rsvd3 0xA7

/-- A table word is a command word if it has no bit above bit 9, and the word placed next on the command port is the
one the next step runs (30_encoding.md section 3; the port as a list is the model's choice, log entries 5 and 11). -/
def Obligations.PlacedWordRunsNext : Prop :=
  ∀ (s : State) (nbits w : Nat), 10 ≤ nbits → w < 2 ^ nbits →
    (w < 1024 → decodeTableWord nbits w = some (decode (BitVec.ofNat 10 w)) ∧
      step (s.withFetchWord nbits w) = exec (decode (BitVec.ofNat 10 w)) s) ∧
    (1024 ≤ w → decodeTableWord nbits w = none)

/-- The words the assembly notation stands for (30_encoding.md section 7). -/
def Obligations.AssemblerWords : Prop :=
  (∀ n < 256, assembleLine (.merge n) = some [BitVec.ofNat 10 n]) ∧
  (∀ n < 1024, assembleLine (.cmd n) = some [BitVec.ofNat 10 n]) ∧
  assembleLine .flush = some [0x100] ∧ assembleLine .init = some [0x200] ∧
  assembleLine .finish = some [0x100] ∧ assembleLine .chunk = some [] ∧
  ∀ cs : List Char, (∀ c ∈ cs, 0x20 ≤ c.toNat ∧ c.toNat < 0x7F) →
    assembleLine (.pack cs) = some (cs.map fun c => BitVec.ofNat 10 c.toNat) ∧
    assemble (cs.map .mergeChar) = some (cs.map fun c => BitVec.ofNat 10 c.toNat)

/-- 30_encoding.md R61: the layout and the numbers of a response word, and for every command that runs exactly one
response, with the status and the `info` the rule gives; status 3 is never produced. -/
def Obligations.ResponsePortFormat : Prop :=
  (∀ r : Response, r.word.toNat = r.status.code.toNat * 256 + r.info.toNat ∧ Response.ofWord r.word = r) ∧
  Status.ok.code = 0 ∧ Status.unassignedSymbol.code = 1 ∧ Status.illegalCommand.code = 2 ∧ Status.codewordTooLong.code = 3 ∧
  ∀ (s t : State) (w : CommandWord) (rest : List Input), s.inputs = .command w :: rest → step s = .next t →
    ∃ r : Response, t.resp = s.resp ++ [r] ∧ r.status ≠ .codewordTooLong ∧
      (r.status = .ok → r.info = 0x00) ∧
      (r.status = .unassignedSymbol → decode w = .merge r.info) ∧
      (r.status = .illegalCommand → r.info.toNat = w.toNat % 256)

/-- 30_encoding.md R64 (fields of a packed row, unsigned, untransformed), and the packed row of an entry as section 2 of
that file lays it out: row bit `LEN_BITS + k` is codeword bit `k`, the row has `LEN_BITS + NW*W` bits, and unpacking
gives the entry back. -/
def Obligations.PackedRowRoundTrip : Prop :=
  ∀ p : Params,
    (∀ r j : Nat, j < p.NW → (unpackRow p r).length = r % 2 ^ p.LEN_BITS ∧
      (unpackRow p r).content[j]? = some (r / 2 ^ (p.LEN_BITS + j * p.W) % 2 ^ p.W)) ∧
    ∀ e : RawEntry, e.typed p = true → e.length ≤ p.MAX_BITS →
      packRow p e < 2 ^ (p.LEN_BITS + p.NW * p.W) ∧
      (∀ k < p.NW * p.W, (packRow p e).testBit (p.LEN_BITS + k) = cwbit p e k) ∧
      unpackRow p (packRow p e) = e

/-- The derived sizes of 00_scope.md section 4: `NW` words hold `MAX_BITS` bits and one fewer do not, `NMAX = NW`,
`LEN_BITS` and `OFF_BITS` are the least widths that hold a length and an offset, and the defaults. -/
def Obligations.DerivedSizes : Prop :=
  (∀ p : Params, p.NMAX = p.NW ∧ p.MAX_BITS ≤ p.NW * p.W ∧ p.NW * p.W < p.MAX_BITS + p.W ∧
    (∀ k : Nat, p.MAX_BITS < 2 ^ k ↔ p.LEN_BITS ≤ k) ∧ ∀ k : Nat, p.W ≤ 2 ^ k ↔ p.OFF_BITS ≤ k) ∧
  Params.default.NW = 32 ∧ Params.default.LEN_BITS = 9 ∧ Params.default.OFF_BITS = 3 ∧ Params.default.NMAX = 32

/-! ### The table and the lookup stage -/

/-- 60_exceptions.md R128: the table check accepts exactly the tables without a codeword longer than `MAX_BITS`, it
refuses with the lowest offending symbol, and a refused table is never given to a packer. -/
def Obligations.TableCheckVerdict : Prop :=
  ∀ cfg : Config,
    (tableCheck cfg = .accepted ↔ TableWellFormed cfg) ∧
    (∀ k : Nat, tableCheck cfg = .codewordTooLong k ↔
      k < 256 ∧ cfg.params.MAX_BITS < (cfg.table.read cfg.params k).length ∧
        ∀ j < k, (cfg.table.read cfg.params j).length ≤ cfg.params.MAX_BITS) ∧
    (∀ s : State, State.powerOn? cfg = .ok s ↔ TableWellFormed cfg ∧ s = State.powerOn cfg) ∧
    ∀ k : Nat, tableCheck cfg = .codewordTooLong k → State.powerOn? cfg = .error (.codewordTooLong k)

/-- 40_lookup.md R75: a symbol is unassigned exactly when its entry has length 0, whatever the content holds, and its use
is an error, not a silent emission of no bits; any other symbol of a checked table is assigned, with its length and
its masked words. -/
def Obligations.UnassignedIsLengthZero : Prop :=
  ∀ (cfg : Config) (sym : Symbol),
    (lookup cfg sym = .unassigned ↔ (tblRead cfg sym).length = 0) ∧
    (TableWellFormed cfg → 0 < (tblRead cfg sym).length →
      lookup cfg sym = .assigned (tblRead cfg sym).length (mask cfg.params (tblRead cfg sym))) ∧
    ∀ s : State, s.cfg = cfg → lookup cfg sym = .unassigned →
      exec (.merge sym) s = .next { s with resp := s.resp ++ [⟨.unassignedSymbol, sym⟩] }

/-- 40_lookup.md R76: the masked codeword, bit by bit and word by word, and its sum `cwval`. -/
def Obligations.MaskedCodeword : Prop :=
  ∀ (p : Params) (e : RawEntry), e.typed p = true → 0 < e.length → e.length ≤ p.MAX_BITS →
    (mask p e).length = p.NW ∧
    (∀ j i : Nat, j < p.NW → i < p.W → ((mask p e).getD j 0).testBit i =
      if j * p.W + i < e.length then (e.content.getD j 0).testBit i else false) ∧
    (∀ j < p.NW, (j < e.length / p.W → (mask p e).getD j 0 = e.content.getD j 0) ∧
      (j = e.length / p.W → (mask p e).getD j 0 = e.content.getD j 0 % 2 ^ (e.length % p.W)) ∧
      (e.length / p.W < j → (mask p e).getD j 0 = 0)) ∧
    ((List.range p.NW).map fun j => (mask p e).getD j 0 * 2 ^ (j * p.W)).sum = cwval p e ∧
    cwval p e < 2 ^ e.length

/-- 40_lookup.md R78: `mword` gives the masked word at an index in range and 0 past the end, and the only index past
the end that a merge uses is `NW`, in its tail step, exactly when `offset + len >= NW*W`. -/
def Obligations.ReadPastEndIsZero : Prop :=
  ∀ (p : Params) (m : List Word), m.length = p.NW →
    (∀ j < p.NW, m[j]? = some (mword p m j)) ∧ (∀ j : Nat, p.NW ≤ j → mword p m j = 0) ∧
    ∀ off len : Nat, off < p.W → len ≤ p.MAX_BITS →
      mergeCount p off len ≤ p.NW ∧ (mergeCount p off len = p.NW ↔ p.NW * p.W ≤ off + len)

/-! ### MERGE -/

/-- 41_merge.md R89, the whole operation: an unassigned symbol is rejected with nothing written; an assigned one runs
the loop `n <= NMAX` times over a running buffer `b`, then the tail and the new offset, and answers OK. -/
def Obligations.MergeFollowsPseudocode : Prop :=
  ∀ (s : State) (sym : Symbol),
    let p := s.cfg.params
    let e := tblRead s.cfg sym
    let m := mask p e
    let off := s.acc.offset
    let n := (off + e.length) / p.W
    (e.length = 0 → exec (.merge sym) s = .next { s with resp := s.resp ++ [⟨.unassignedSymbol, sym⟩] }) ∧
    (0 < e.length → e.length ≤ p.MAX_BITS → n ≤ p.NMAX ∧
      ∃ b : Nat → Word, b 0 = s.acc.buffer ∧
        (∀ w < n, b (w + 1) = if off = 0 then 0 else mword p m w >>> (p.W - off)) ∧
        exec (.merge sym) s = .next
          { s with
            acc := ⟨b n ||| trunc p.W (mword p m n <<< off), (off + e.length) % p.W⟩
            out := s.out ++ (List.range n).map fun w => trunc p.W (b w ||| mword p m w <<< off)
            resp := s.resp ++ [⟨.ok, 0x00⟩]
            offset_lt := Nat.mod_lt _ p.W_pos })

/-- The closed form of `MERGE` (41_merge.md, the section's closed form, an inference the spec marks as derived): with the
registers in their ranges, an accepted merge cuts `V`, the pending bits followed by the codeword bits, into
complete words and the remainder; under `INV` that `V` is a sum below `2^(off+len)`. -/
def Obligations.MergeClosedForm : Prop :=
  ∀ (s : State) (sym : Symbol),
    let p := s.cfg.params
    let e := tblRead s.cfg sym
    let V := s.acc.buffer ||| cwval p e <<< s.acc.offset
    let n := (s.acc.offset + e.length) / p.W
    0 < e.length → e.length ≤ p.MAX_BITS → AccTyped p s.acc →
      exec (.merge sym) s = .next
        { s with
          acc := ⟨V >>> (n * p.W), (s.acc.offset + e.length) % p.W⟩
          out := s.out ++ (List.range n).map fun j => slice V (j * p.W + p.W - 1) (j * p.W)
          resp := s.resp ++ [⟨.ok, 0x00⟩]
          offset_lt := Nat.mod_lt _ p.W_pos } ∧
      (s.acc.buffer < 2 ^ s.acc.offset →
        V = s.acc.buffer + cwval p e * 2 ^ s.acc.offset ∧ V < 2 ^ (s.acc.offset + e.length))

/-- Every merge that answers keeps `INV` (41_merge.md, an inference the spec marks as derived). -/
def Obligations.MergeKeepsAccInv : Prop :=
  ∀ (s t : State) (sym : Symbol), AccInv s.cfg.params s.acc → exec (.merge sym) s = .next t →
    AccInv t.cfg.params t.acc

/-- 41_merge.md R88: the new offset and buffer, the offset's range, and that it is 0 exactly when the merge ended on a
word boundary, when the new buffer is 0. -/
def Obligations.MergeNewOffset : Prop :=
  ∀ (s : State) (sym : Symbol),
    let p := s.cfg.params
    let e := tblRead s.cfg sym
    let off := s.acc.offset
    let n := (off + e.length) / p.W
    0 < e.length → e.length ≤ p.MAX_BITS → AccInv p s.acc →
      ∃ t, exec (.merge sym) s = .next t ∧ t.acc.offset = (off + e.length) % p.W ∧ t.acc.offset < p.W ∧
        t.acc.buffer =
          mergeTail p off (mask p e) n (mergeLoop p off (mask p e) n 0 s.acc.buffer).2 ∧
        (t.acc.offset = 0 ↔ p.W ∣ off + e.length) ∧ (t.acc.offset = 0 → t.acc.buffer = 0)

/-- 41_merge.md R92: a codeword whose length is a multiple of `W` leaves the offset unchanged at every entry offset and
emits exactly `len / W` words, the pending bits followed by codeword bits; the new buffer is the top `off` bits of
the codeword's last word. -/
def Obligations.MergeMultipleOfWidth : Prop :=
  ∀ (s : State) (sym : Symbol) (k : Nat),
    let p := s.cfg.params
    let e := tblRead s.cfg sym
    0 < k → e.length = k * p.W → e.length ≤ p.MAX_BITS → AccInv p s.acc →
      ∃ t ws, exec (.merge sym) s = .next t ∧ t.out = s.out ++ ws ∧ ws.length = e.length / p.W ∧
        t.acc.offset = s.acc.offset ∧
        t.acc.buffer = mword p (mask p e) (k - 1) >>> (p.W - s.acc.offset) ∧
        streamBits p.W ws ++ (List.range s.acc.offset).map t.acc.buffer.testBit =
          (List.range s.acc.offset).map s.acc.buffer.testBit ++ bitString p e

/-- 41_merge.md R83: the number of complete words an accepted merge emits, its bound, and when it is 0. -/
def Obligations.MergeWordCount : Prop :=
  ∀ (s : State) (sym : Symbol),
    let p := s.cfg.params
    let e := tblRead s.cfg sym
    let n := (s.acc.offset + e.length) / p.W
    0 < e.length → e.length ≤ p.MAX_BITS →
      ∃ t ws, exec (.merge sym) s = .next t ∧ t.out = s.out ++ ws ∧ ws.length = n ∧
        n ≤ (p.W - 1 + p.MAX_BITS) / p.W ∧ (n = 0 ↔ s.acc.offset + e.length < p.W)

/-- 41_merge.md R94: codewords up to `MAX_BITS` are merged; the word count reaches `NMAX`, which is `MAX_BITS / W` when `W`
divides `MAX_BITS`, and the tail index then is `NW`; once a merge emits a word, the state after it is given by
`(off + len) mod W` and that many top bits of the codeword alone. -/
def Obligations.LongMergeKeepsTopBits : Prop :=
  ∀ (s : State) (sym : Symbol),
    let p := s.cfg.params
    let e := tblRead s.cfg sym
    let r := (s.acc.offset + e.length) % p.W
    0 < e.length → e.length ≤ p.MAX_BITS → AccTyped p s.acc →
      (p.W ≤ s.acc.offset + e.length → ∃ t, exec (.merge sym) s = .next t ∧
        r ≤ e.length ∧ t.acc = ⟨cwval p e >>> (e.length - r), r⟩) ∧
      (e.length = p.MAX_BITS → s.acc.offset = p.W - 1 → ∃ t, exec (.merge sym) s = .next t ∧
        t.out.length = s.out.length + p.NMAX) ∧
      (e.length = p.MAX_BITS → p.W ∣ p.MAX_BITS → ∃ t, exec (.merge sym) s = .next t ∧
        t.out.length = s.out.length + p.NMAX ∧ p.NMAX = p.MAX_BITS / p.W ∧
        mergeCount p s.acc.offset e.length = p.NW)

/-- 41_merge.md R82, 45_session_laws.md R115, 60_exceptions.md R126: a merge of an unassigned symbol, whatever the
accumulator holds, answers `(UNASSIGNED_SYMBOL, sym)` and changes nothing else; no other command gives that answer. -/
def Obligations.UnassignedMergeChangesNothing : Prop :=
  (∀ (s : State) (sym : Symbol), (tblRead s.cfg sym).length = 0 →
    exec (.merge sym) s = .next { s with resp := s.resp ++ [⟨.unassignedSymbol, sym⟩] }) ∧
  ∀ (s t : State) (i : Instr) (info : BitVec 8), exec i s = .next t →
    t.resp = s.resp ++ [⟨.unassignedSymbol, info⟩] → i = .merge info ∧ (tblRead s.cfg info).length = 0

/-- The only stop of the machine: a merge that reads an entry longer than `MAX_BITS` from a table that was never checked
faults (93_implementation_defined.md, part 1, U7; log entry 7). Nothing is refused. -/
def Obligations.OnlyUncheckedTablesFault : Prop :=
  ∀ (s : State) (i : Instr),
    (∀ f : Fault, exec i s = .fault f ↔
      ∃ sym, i = .merge sym ∧ f = .codewordTooLong sym ∧ s.cfg.params.MAX_BITS < (tblRead s.cfg sym).length) ∧
    ∀ r : Refusal, exec i s ≠ .refused r

/-! ### FLUSH, INIT and RSVD3 -/

/-- 42_flush_init.md R98: the whole effect of `FLUSH` from every state, so that it cannot fail, and `INV` holds after it. -/
def Obligations.FlushResult : Prop :=
  ∀ (s : State) (sym : Symbol),
    exec (.flush sym) s = .next
      { s with
        acc := ⟨0, 0⟩
        out := if 0 < s.acc.offset then s.out ++ [s.acc.buffer] else s.out
        resp := s.resp ++ [⟨.ok, 0x00⟩]
        offset_lt := s.cfg.params.W_pos } ∧
    AccInv s.cfg.params ⟨0, 0⟩

/-- 42_flush_init.md R99, 45_session_laws.md R116: with nothing merged between, a second `FLUSH` emits nothing, leaves the
initial state and answers OK; a first one at offset 0, so also the first command after power-on, does the same. -/
def Obligations.FlushTwiceEmitsOnce : Prop :=
  (∀ (s : State) (a b : Symbol), ∃ t, exec (.flush a) s = .next t ∧
    exec (.flush b) t = .next { t with resp := t.resp ++ [⟨.ok, 0x00⟩] } ∧ t.acc = ⟨0, 0⟩) ∧
  (∀ (s : State) (a : Symbol), s.acc.offset = 0 → ∃ t, exec (.flush a) s = .next t ∧ t.out = s.out ∧
    t.acc = ⟨0, 0⟩ ∧ t.resp = s.resp ++ [⟨.ok, 0x00⟩]) ∧
  ∀ (cfg : Config) (a : Symbol), exec (.flush a) (State.powerOn cfg) =
    .next { State.powerOn cfg with resp := [⟨.ok, 0x00⟩] }

/-- 42_flush_init.md R100: what a `FLUSH` emits is the pending bits followed by `(W - offset) mod W` zero bits: no word,
and no padding, at offset 0. -/
def Obligations.FlushPadding : Prop :=
  ∀ (s : State) (sym : Symbol), AccInv s.cfg.params s.acc →
    ∃ t ws, exec (.flush sym) s = .next t ∧ t.out = s.out ++ ws ∧
      (ws = [] ↔ s.acc.offset = 0) ∧
      streamBits s.cfg.params.W ws = (List.range s.acc.offset).map s.acc.buffer.testBit ++
        List.replicate ((s.cfg.params.W - s.acc.offset) % s.cfg.params.W) false

/-- 42_flush_init.md R103: the whole effect of `INIT` from every state, from its command word `0x200` and from every
other word with `op = 0b10`; `INV` holds after it. -/
def Obligations.InitResult : Prop :=
  (∀ (s : State) (sym : Symbol),
    exec (.init sym) s = .next
      { s with acc := ⟨0, 0⟩, resp := s.resp ++ [⟨.ok, 0x00⟩], offset_lt := s.cfg.params.W_pos } ∧
    AccInv s.cfg.params ⟨0, 0⟩) ∧
  encode (.init 0) = 0x200 ∧
  ∀ (s : State) (w : CommandWord), w.toNat / 256 = 2 →
    exec (decode w) s = .next
      { s with acc := ⟨0, 0⟩, resp := s.resp ++ [⟨.ok, 0x00⟩], offset_lt := s.cfg.params.W_pos }

/-- 42_flush_init.md R106, 60_exceptions.md R130: the whole effect of the reserved command from every state, from its
command word with `op = 0b11`. -/
def Obligations.ReservedCommandResult : Prop :=
  (∀ (s : State) (sym : Symbol),
    exec (.rsvd3 sym) s = .next { s with resp := s.resp ++ [⟨.illegalCommand, sym⟩] }) ∧
  ∀ (s : State) (w : CommandWord), w.toNat / 256 = 3 →
    exec (decode w) s = .next { s with resp := s.resp ++ [⟨.illegalCommand, BitVec.ofNat 8 (w.toNat % 256)⟩] }

/-- 30_encoding.md R67: the `sym` field is ignored by `FLUSH` and `INIT`, only copied to `info` by `RSVD3`, and written
as 0 by the assembler. -/
def Obligations.IgnoredSymbolField : Prop :=
  (∀ (s : State) (a b : Symbol), exec (.flush a) s = exec (.flush b) s ∧ exec (.init a) s = exec (.init b) s) ∧
  (∀ (s : State) (a : Symbol), ∃ t, exec (.rsvd3 a) s = .next t ∧ t = { s with resp := t.resp } ∧
    t.resp = s.resp ++ [⟨.illegalCommand, a⟩]) ∧
  assembleLine .flush = some [encode (.flush 0)] ∧ assembleLine .init = some [encode (.init 0)]

/-- 42_flush_init.md R107: the table of what each command emits, leaves and answers; the accumulator of an accepted
merge is that of the loop, the tail and the new offset. -/
def Obligations.CommandAnswerTable : Prop :=
  ∀ s : State, TableWellFormed s.cfg →
    (∀ sym : Symbol,
      let p := s.cfg.params
      let e := tblRead s.cfg sym
      let m := mask p e
      let n := (s.acc.offset + e.length) / p.W
      (0 < e.length → ∃ t, exec (.merge sym) s = .next t ∧ t.out.length = s.out.length + n ∧
        t.acc = ⟨mergeTail p s.acc.offset m n (mergeLoop p s.acc.offset m n 0 s.acc.buffer).2,
          (s.acc.offset + e.length) % p.W⟩ ∧ t.resp = s.resp ++ [⟨.ok, 0x00⟩]) ∧
      (e.length = 0 → ∃ t, exec (.merge sym) s = .next t ∧ t.out = s.out ∧ t.acc = s.acc ∧
        t.resp = s.resp ++ [⟨.unassignedSymbol, sym⟩])) ∧
    (∀ sym : Symbol, 0 < s.acc.offset → ∃ t, exec (.flush sym) s = .next t ∧ t.out = s.out ++ [s.acc.buffer] ∧
      t.acc = ⟨0, 0⟩ ∧ t.resp = s.resp ++ [⟨.ok, 0x00⟩]) ∧
    (∀ sym : Symbol, s.acc.offset = 0 → ∃ t, exec (.flush sym) s = .next t ∧ t.out = s.out ∧
      t.acc = ⟨0, 0⟩ ∧ t.resp = s.resp ++ [⟨.ok, 0x00⟩]) ∧
    (∀ sym : Symbol, ∃ t, exec (.init sym) s = .next t ∧ t.out = s.out ∧ t.acc = ⟨0, 0⟩ ∧
      t.resp = s.resp ++ [⟨.ok, 0x00⟩]) ∧
    ∀ sym : Symbol, ∃ t, exec (.rsvd3 sym) s = .next t ∧ t.out = s.out ∧ t.acc = s.acc ∧
      t.resp = s.resp ++ [⟨.illegalCommand, sym⟩]

/-- 10_state.md R31: the initial state `buffer = 0, offset = 0` is the accumulator's state after power-on reset, after a
reset between commands, after `INIT` and after `FLUSH`. -/
def Obligations.WaysToTheInitialState : Prop :=
  State.reset.acc = ⟨0, 0⟩ ∧ (∀ cfg : Config, (State.powerOn cfg).acc = ⟨0, 0⟩) ∧
  (∀ (s : State) (rest : List Input), s.inputs = .reset :: rest → ∃ t, step s = .next t ∧ t.acc = ⟨0, 0⟩) ∧
  ∀ (s : State) (sym : Symbol), (∃ t, exec (.init sym) s = .next t ∧ t.acc = ⟨0, 0⟩) ∧
    ∃ t, exec (.flush sym) s = .next t ∧ t.acc = ⟨0, 0⟩

/-! ### One step -/

/-- When the next input is a command word that decodes to an instruction, the step is that instruction's execution with
the word taken from the port (20_memory.md section 4, 92_eei_decisions.md D4; the port as a list is the model's
choice, log entry 5). -/
def Obligations.StepRunsDecodedCommand : Prop :=
  ∀ (s : State) (w : CommandWord) (i : Instr) (rest : List Input),
    s.inputs = .command w :: rest → decode w = i → i.wf = true →
      step s = exec i { s with inputs := rest }

/-- 70_reset_and_hazards.md R148: a reset between commands puts the accumulator in the initial state, as `INIT` does,
without a response; the histories and the table stay. -/
def Obligations.ResetInputEffect : Prop :=
  ∀ (s : State) (rest : List Input) (sym : Symbol), s.inputs = .reset :: rest →
    step s = .next { s with acc := ⟨0, 0⟩, inputs := rest, offset_lt := s.cfg.params.W_pos } ∧
    ∃ t, exec (.init sym) { s with inputs := rest } = .next t ∧ step s = .next { t with resp := s.resp }

/-- A pause of any length between commands changes nothing (10_state.md section 1; the idle step is the model's reading,
log entry 6). -/
def Obligations.PauseChangesNothing : Prop :=
  ∀ (s : State) (k : Nat), s.inputs = [] → run k s = .next s

/-- 70_reset_and_hazards.md R147: after power-on with any configuration, and after a reset between commands,
`acc.buffer = 0` and `acc.offset = 0`; a reset changes nothing else; over every checked table the packer then takes
its first command, whatever the command is. -/
def Obligations.ResetState : Prop :=
  (∀ cfg : Config, (State.powerOn cfg).acc.buffer = 0 ∧ (State.powerOn cfg).acc.offset = 0) ∧
  (∀ (s : State) (rest : List Input), s.inputs = .reset :: rest → ∃ t, step s = .next t ∧
    t.acc.buffer = 0 ∧ t.acc.offset = 0 ∧ t.cfg = s.cfg ∧ t.out = s.out ∧ t.resp = s.resp ∧ t.inputs = rest) ∧
  (∀ (cfg : Config) (w : CommandWord), TableWellFormed cfg → ∃ t,
    step (deliver [.command w] (State.powerOn cfg)) = .next t ∧ t.resp.length = 1 ∧ t.inputs = []) ∧
  ∀ (s : State) (w : CommandWord) (rest : List Input), TableWellFormed s.cfg →
    s.inputs = .reset :: .command w :: rest → ∃ t, run 2 s = .next t ∧
      t.resp.length = s.resp.length + 1 ∧ t.inputs = rest

/-- 20_memory.md R38, 70_reset_and_hazards.md R150: no step changes the table or the parameters; and no step changes or
removes an emitted word or a response: a step only appends. -/
def Obligations.EveryStepOnlyAppends : Prop :=
  ∀ s t : State, step s = .next t →
    t.cfg = s.cfg ∧ (∃ ws, t.out = s.out ++ ws) ∧ ∃ rs, t.resp = s.resp ++ rs

/-- The number of words each command writes: `MERGE` between 0 and `NMAX`, `FLUSH` 0 or 1, `INIT` and the reserved command
none (20_memory.md section 3). -/
def Obligations.WordsPerCommand : Prop :=
  ∀ (s t : State) (i : Instr), exec i s = .next t →
    ∃ ws, t.out = s.out ++ ws ∧
      match i with
      | .merge _ => ws.length ≤ s.cfg.params.NMAX
      | .flush _ => ws.length ≤ 1
      | .init _ => ws = []
      | .rsvd3 _ => ws = []

/-- 10_state.md R21: only an accepted `MERGE`, `FLUSH`, `INIT` and reset change the accumulator: not a pause, not a
rejected merge, not a reserved command. -/
def Obligations.AccumulatorWriters : Prop :=
  ∀ s t : State, step s = .next t → t.acc ≠ s.acc →
    (∃ rest, s.inputs = .reset :: rest) ∨
    ∃ w rest, s.inputs = .command w :: rest ∧
      ((∃ sym, decode w = .merge sym ∧ 0 < (tblRead s.cfg sym).length) ∨ (∃ sym, decode w = .flush sym) ∨
        ∃ sym, decode w = .init sym)

/-- 60_exceptions.md R134: a command that answers an error has done nothing but deliver that response: no word, no
register, no control transfer. -/
def Obligations.ErrorsLeaveTheState : Prop :=
  ∀ (s t : State) (i : Instr), exec i s = .next t → (∃ r ∈ t.resp.getLast?, r.status ≠ .ok) →
    ∃ st info, st ≠ Status.ok ∧ t = { s with resp := s.resp ++ [⟨st, info⟩] }

/-! ### The invariant -/

/-- A packer powered on with any well-formed configuration meets the invariant, whatever the caller presents to it; so
does the reset state. -/
def Obligations.PowerOnMeetsInv : Prop :=
  (∀ (cfg : Config) (xs : List Input), cfg.wf = true → Inv (deliver xs (State.powerOn cfg))) ∧ Inv State.reset

/-- Every step keeps the invariant: the configuration stays checked, `offset < W` and `buffer < 2^offset` (the spec's
`INV`, 10_state.md section 1), every emitted word is a word, every response one the port can carry. -/
def Obligations.StepKeepsInv : Prop :=
  ∀ s t : State, Inv s → step s = .next t → Inv t

/-- From every state that meets the invariant the packer goes on for any number of steps, and every state it comes to
meets it again (45_session_laws.md section 4, "Every command terminates"; 60_exceptions.md section 1). -/
def Obligations.PackerNeverStops : Prop :=
  ∀ (s : State) (k : Nat), Inv s → ∃ t, run k s = .next t ∧ Inv t

/-! ### What a command cannot see -/

/-- 10_state.md R25 and R26: both histories are empty at power-on, and no step reads or removes what they hold: with other
words and responses before them, every step does the same. -/
def Obligations.HistoriesNeverRead : Prop :=
  (∀ cfg : Config, HistoriesEmpty (State.powerOn cfg)) ∧
  ∀ (s : State) (ws : List Word) (rs : List Response),
    step { s with out := ws ++ s.out, resp := rs ++ s.resp } =
      andThen (step s) fun t => .next { t with out := ws ++ t.out, resp := rs ++ t.resp }

/-- 30_encoding.md R54: content bits at positions `>= length` are don't-care: over two tables that agree on every length
and on every codeword bit below it, every command does the same. -/
def Obligations.DontCareBitsInvisible : Prop :=
  ∀ (s : State) (i : Instr) (cfg : Config) (hp : cfg.params = s.cfg.params),
    (∀ sym : Symbol, (tblRead cfg sym).length = (tblRead s.cfg sym).length ∧
      ∀ k < (tblRead s.cfg sym).length, cwbit cfg.params (tblRead cfg sym) k = cwbit s.cfg.params (tblRead s.cfg sym) k) →
    let s' : State := { s with cfg := cfg, offset_lt := hp ▸ s.offset_lt }
    (∀ t : State, exec i s = .next t → ∃ h, exec i s' = .next { t with cfg := cfg, offset_lt := h }) ∧
    (∀ f : Fault, exec i s = .fault f → exec i s' = .fault f) ∧
    ∀ r : Refusal, exec i s = .refused r → exec i s' = .refused r

/-! ### Sessions -/

/-- The state in the middle of a session (45_session_laws.md section 1, an inference the spec marks as derived): after
merges and rejected commands from the initial state, the accepted symbols' codewords laid end to end have been
emitted up to the last word boundary and the rest is pending. -/
def Obligations.MidSessionState : Prop :=
  ∀ (s : State) (is : List Instr) (rest : List Input),
    TableWellFormed s.cfg → CleanEntry s → (∀ i ∈ is, staysInSession i = true) → s.inputs = commands is ++ rest →
    let W := s.cfg.params.W
    let syms := acceptedSymbols s.cfg is
    let L := sessionLength s.cfg syms
    let B := sessionValue s.cfg syms
    run is.length s = .next
      { s with
        acc := ⟨B >>> (L / W * W), L % W⟩
        out := s.out ++ sliceWords W B (L / W)
        resp := s.resp ++ is.map (responseOf s.cfg)
        inputs := rest
        offset_lt := Nat.mod_lt _ s.cfg.params.W_pos } ∧
    B >>> (L / W * W) < 2 ^ (L % W)

/-- The stream contract (45_session_laws.md section 1, an inference the spec marks as derived): the words a completed
session appends are exactly the `ceil(L/W)` words of its codewords laid end to end, and it ends in the initial
state with one response per command. -/
def Obligations.StreamContract : Prop :=
  ∀ (s : State) (is : List Instr) (x : Symbol) (rest : List Input),
    TableWellFormed s.cfg → CleanEntry s → (∀ i ∈ is, staysInSession i = true) →
    s.inputs = commands (is ++ [.flush x]) ++ rest →
    let W := s.cfg.params.W
    let syms := acceptedSymbols s.cfg is
    let L := sessionLength s.cfg syms
    let B := sessionValue s.cfg syms
    run (is.length + 1) s = .next
      { s with
        acc := ⟨0, 0⟩
        out := s.out ++ (List.range ((L + W - 1) / W)).map fun j => slice B (j * W + W - 1) (j * W)
        resp := s.resp ++ is.map (responseOf s.cfg) ++ [⟨.ok, 0x00⟩]
        inputs := rest
        offset_lt := s.cfg.params.W_pos } ∧
    B < 2 ^ L

/-- 20_memory.md R40: the bits of the words a completed session appends, least significant first and in word order, are
the bit strings of its accepted symbols end to end, padded at the very end with fewer than `W` zero bits; bit `i` of
word `j` is stream bit `j*W + i`. -/
def Obligations.StreamBitsAreCodewordBits : Prop :=
  ∀ (s : State) (is : List Instr) (x : Symbol) (rest : List Input),
    TableWellFormed s.cfg → CleanEntry s → (∀ i ∈ is, staysInSession i = true) →
    s.inputs = commands (is ++ [.flush x]) ++ rest →
    let W := s.cfg.params.W
    let syms := acceptedSymbols s.cfg is
    ∃ t ws pad, run (is.length + 1) s = .next t ∧ t.out = s.out ++ ws ∧ pad < W ∧
      streamBits W ws = (syms.flatMap fun sym => bitString s.cfg.params (tblRead s.cfg sym)) ++ List.replicate pad false ∧
      ∀ j i : Nat, j < ws.length → i < W →
        (streamBits W ws)[j * W + i]? = some ((ws.getD j 0).testBit i)

/-- Bit-count conservation (45_session_laws.md section 2, the spec's conclusion from its stream contract): the merges of a
completed session append `L div W` words, its flush one more exactly when `L mod W > 0`, together
`ceil(L / W) * W` bits. -/
def Obligations.BitCountConserved : Prop :=
  ∀ (s : State) (is : List Instr) (x : Symbol) (rest : List Input),
    TableWellFormed s.cfg → CleanEntry s → (∀ i ∈ is, staysInSession i = true) →
    s.inputs = commands (is ++ [.flush x]) ++ rest →
    let W := s.cfg.params.W
    let L := sessionLength s.cfg (acceptedSymbols s.cfg is)
    ∃ t u, run is.length s = .next t ∧ run (is.length + 1) s = .next u ∧
      t.out.length = s.out.length + L / W ∧
      u.out.length = t.out.length + (if 0 < L % W then 1 else 0) ∧
      (streamBits W (u.out.drop s.out.length)).length = (L + W - 1) / W * W ∧
      (L = 0 → u.out = s.out)

/-- Rejected commands are transparent (45_session_laws.md section 3, an inference the spec marks as derived): removing
every rejected merge and every reserved command from a command sequence changes neither the words nor the
accumulator, and removes exactly their responses. -/
def Obligations.RejectedCommandsTransparent : Prop :=
  ∀ (s : State) (is : List Instr), TableWellFormed s.cfg →
    let kept := is.filter fun i => !isRejected s.cfg i
    ∃ t u, run is.length { s with inputs := commands is } = .next t ∧
      run kept.length { s with inputs := commands kept } = .next u ∧
      t.acc = u.acc ∧ t.out = u.out ∧
      t.resp = s.resp ++ is.map (responseOf s.cfg) ∧ u.resp = s.resp ++ kept.map (responseOf s.cfg)

/-- A `FLUSH` in the middle of a symbol sequence splits it into two sessions (45_session_laws.md section 3, an inference
the spec marks as derived): the words of the first, with its padding bits, then those of the second; at a word
boundary they are the words of the unsplit session (log entry 17 says why the converse is not stated). -/
def Obligations.MidFlushSplitsSession : Prop :=
  ∀ (s : State) (is js : List Instr) (x y : Symbol) (rest : List Input),
    TableWellFormed s.cfg → CleanEntry s → (∀ i ∈ is ++ js, staysInSession i = true) →
    s.inputs = commands (is ++ [.flush x] ++ js ++ [.flush y]) ++ rest →
    let W := s.cfg.params.W
    let a := acceptedSymbols s.cfg is
    let b := acceptedSymbols s.cfg js
    let L := sessionLength s.cfg a
    ∃ t ws, run (is.length + js.length + 2) s = .next t ∧ t.out = s.out ++ ws ∧
      ws = sessionWords s.cfg a ++ sessionWords s.cfg b ∧
      streamBits W (sessionWords s.cfg a) = sessionBits s.cfg a ++ List.replicate ((W - L % W) % W) false ∧
      (L % W = 0 → ws = sessionWords s.cfg (a ++ b))

/-- An abandoned session (45_session_laws.md section 3, an inference the spec marks as derived): ended by `INIT` or by
reset, it has appended the `L div W` complete words and nothing more, and the accumulator is in the initial state. -/
def Obligations.AbandonedSession : Prop :=
  ∀ (s : State) (is : List Instr) (last : Input) (rest : List Input),
    TableWellFormed s.cfg → CleanEntry s → (∀ i ∈ is, staysInSession i = true) →
    (last = .reset ∨ ∃ x, last = .command (encode (.init x))) → s.inputs = commands is ++ last :: rest →
    let W := s.cfg.params.W
    let syms := acceptedSymbols s.cfg is
    ∃ t, run (is.length + 1) s = .next t ∧ t.acc = ⟨0, 0⟩ ∧ t.inputs = rest ∧
      t.out = s.out ++ sliceWords W (sessionValue s.cfg syms) (sessionLength s.cfg syms / W)

/-- 45_session_laws.md R112: chunking invariance: presenting inputs in chunks through the same packer, with pauses of any
length between them, does what presenting them all at once does, from every state with nothing presented. -/
def Obligations.ChunkingInvariance : Prop :=
  ∀ (s : State) (chunks : List (List Input × Nat)), s.inputs = [] →
    let all := (chunks.map Prod.fst).flatten
    runChunks chunks s = run all.length (deliver all s)

/-- The round trip (45_session_laws.md section 2, an inference the spec marks as derived): over a prefix-free table, the
greedy decoder of log entry 16, told the number of symbols, recovers from a completed session's words exactly the
symbols that were merged. -/
def Obligations.RoundTripOverPrefixCode : Prop :=
  ∀ (s : State) (syms : List Symbol) (x : Symbol) (rest : List Input),
    TableWellFormed s.cfg → PrefixFree s.cfg → CleanEntry s → (∀ sym ∈ syms, 0 < (tblRead s.cfg sym).length) →
    s.inputs = commands (syms.map .merge ++ [.flush x]) ++ rest →
    ∃ t ws, run (syms.length + 1) s = .next t ∧ t.out = s.out ++ ws ∧
      decodeSymbols s.cfg syms.length (streamBits s.cfg.params.W ws) = some syms

/-! ### Several packers -/

/-- Several packers (60_exceptions.md section 4) share no mutable state: whatever the interleaving of their steps, each
comes to the state it comes to when it runs alone for as many steps, and from states with the invariant the whole
schedule runs. The list of states, the schedule of positions, and that a position without a packer does nothing are
the model's choice (log entry 15). -/
def Obligations.InstancesIndependent : Prop :=
  (∀ (sched : List Nat) (ss ts : Instances), runSchedule sched ss = .next ts →
    ts.length = ss.length ∧
    ∀ (j : Nat) (s : State), ss[j]? = some s → ∃ t, ts[j]? = some t ∧ run (sched.count j) s = .next t) ∧
  ∀ (sched : List Nat) (ss : Instances), (∀ s ∈ ss, Inv s) → ∃ ts, runSchedule sched ss = .next ts
end

