-- ==== Sys2Proof/Laws/State.lean ====
section
/-! SUPPORT. One lemma per field per update of the state, so that no later proof unfolds a record update. -/

namespace Sys2Proof.Machine

variable (s : State) (v : Word) (ws : List Word) (a : Accumulator) (st : Status) (info : BitVec 8)
  (more : List Input) (cfg : Config) (h : a.offset < s.cfg.params.W)

@[simp] theorem emit_cfg : (emit v s).cfg = s.cfg := rfl
@[simp] theorem emit_acc : (emit v s).acc = s.acc := rfl
@[simp] theorem emit_out : (emit v s).out = s.out ++ [v] := rfl
@[simp] theorem emit_resp : (emit v s).resp = s.resp := rfl
@[simp] theorem emit_inputs : (emit v s).inputs = s.inputs := rfl

@[simp] theorem respond_cfg : (respond st info s).cfg = s.cfg := rfl
@[simp] theorem respond_acc : (respond st info s).acc = s.acc := rfl
@[simp] theorem respond_out : (respond st info s).out = s.out := rfl
@[simp] theorem respond_resp : (respond st info s).resp = s.resp ++ [⟨st, info⟩] := rfl
@[simp] theorem respond_inputs : (respond st info s).inputs = s.inputs := rfl

@[simp] theorem raiseError_eq : raiseError st info s = respond st info s := rfl

@[simp] theorem setAcc_cfg : (setAcc a s h).cfg = s.cfg := rfl
@[simp] theorem setAcc_acc : (setAcc a s h).acc = a := rfl
@[simp] theorem setAcc_out : (setAcc a s h).out = s.out := rfl
@[simp] theorem setAcc_resp : (setAcc a s h).resp = s.resp := rfl
@[simp] theorem setAcc_inputs : (setAcc a s h).inputs = s.inputs := rfl

@[simp] theorem clearAcc_cfg : (clearAcc s).cfg = s.cfg := rfl
@[simp] theorem clearAcc_acc : (clearAcc s).acc = Accumulator.initial := rfl
@[simp] theorem clearAcc_out : (clearAcc s).out = s.out := rfl
@[simp] theorem clearAcc_resp : (clearAcc s).resp = s.resp := rfl
@[simp] theorem clearAcc_inputs : (clearAcc s).inputs = s.inputs := rfl

@[simp] theorem applyReset_eq : applyReset s = clearAcc s := rfl

@[simp] theorem deliver_cfg : (deliver more s).cfg = s.cfg := rfl
@[simp] theorem deliver_acc : (deliver more s).acc = s.acc := rfl
@[simp] theorem deliver_out : (deliver more s).out = s.out := rfl
@[simp] theorem deliver_resp : (deliver more s).resp = s.resp := rfl
@[simp] theorem deliver_inputs : (deliver more s).inputs = s.inputs ++ more := rfl

@[simp] theorem powerOn_cfg : (State.powerOn cfg).cfg = cfg := rfl
@[simp] theorem powerOn_acc : (State.powerOn cfg).acc = Accumulator.initial := rfl
@[simp] theorem powerOn_out : (State.powerOn cfg).out = [] := rfl
@[simp] theorem powerOn_resp : (State.powerOn cfg).resp = [] := rfl
@[simp] theorem powerOn_inputs : (State.powerOn cfg).inputs = [] := rfl

@[simp] theorem initial_buffer : Accumulator.initial.buffer = 0 := rfl
@[simp] theorem initial_offset : Accumulator.initial.offset = 0 := rfl

/-- The words of a command are emitted one by one, each by `Emit`. -/
theorem emitAll_cons : emitAll (v :: ws) s = emitAll ws (emit v s) := by simp [emitAll, emit]

@[simp] theorem emitAll_nil : emitAll [] s = s := by simp [emitAll]
@[simp] theorem emitAll_cfg : (emitAll ws s).cfg = s.cfg := rfl
@[simp] theorem emitAll_acc : (emitAll ws s).acc = s.acc := rfl
@[simp] theorem emitAll_out : (emitAll ws s).out = s.out ++ ws := rfl
@[simp] theorem emitAll_resp : (emitAll ws s).resp = s.resp := rfl
@[simp] theorem emitAll_inputs : (emitAll ws s).inputs = s.inputs := rfl

/-- Two states with the same fields are the same state. -/
theorem State.ext_fields {s t : State} (h₁ : s.cfg = t.cfg) (h₂ : s.acc = t.acc) (h₃ : s.out = t.out)
    (h₄ : s.resp = t.resp) (h₅ : s.inputs = t.inputs) : s = t := by
  cases s; cases t; simp_all

end Sys2Proof.Machine
end

