-- ==== Sys2Proof/Laws/Bits.lean ====
section
/-! SUPPORT. Bits, slices, masked words and the value of a codeword. -/

namespace Sys2Proof.Machine

theorem wordSlice_eq {W : Nat} (hW : 1 ≤ W) (V j : Nat) : wordSlice W V j = V / 2 ^ (j * W) % 2 ^ W := by
  have h : j * W + W - 1 - j * W + 1 = W := by omega
  simp [wordSlice, slice, h]

theorem wordSlice_lt {W : Nat} (hW : 1 ≤ W) (V j : Nat) : wordSlice W V j < 2 ^ W := by
  rw [wordSlice_eq hW]
  exact Nat.mod_lt _ (Nat.two_pow_pos W)

/-- Bit `i` of the `j`-th word of a number is the number's bit `j*W + i`. -/
theorem wordSlice_testBit {W : Nat} (hW : 1 ≤ W) (V j i : Nat) :
    (wordSlice W V j).testBit i = (decide (i < W) && V.testBit (j * W + i)) := by
  rw [wordSlice_eq hW, Nat.testBit_mod_two_pow, Nat.testBit_div_two_pow, Nat.add_comm]

@[simp] theorem sliceWords_length (W V n : Nat) : (sliceWords W V n).length = n := by simp [sliceWords]

@[simp] theorem sliceWords_zero (W V : Nat) : sliceWords W V 0 = [] := rfl

theorem sliceWords_succ (W V n : Nat) : sliceWords W V (n + 1) = sliceWords W V n ++ [wordSlice W V n] := by
  simp [sliceWords, List.range_succ]

/-- The lowest word of a number, then the words of what lies above it. -/
theorem sliceWords_cons {W : Nat} (hW : 1 ≤ W) (V n : Nat) :
    sliceWords W V (n + 1) = wordSlice W V 0 :: sliceWords W (V / 2 ^ W) n := by
  have h : ∀ j, wordSlice W V (j + 1) = wordSlice W (V / 2 ^ W) j := by
    intro j
    rw [wordSlice_eq hW, wordSlice_eq hW, Nat.div_div_eq_div_mul, ← Nat.pow_add]
    congr 3
    ring
  simp [sliceWords, List.range_succ_eq_map, h, Function.comp_def]

theorem sliceWords_lt {W : Nat} (hW : 1 ≤ W) {V n v : Nat} (h : v ∈ sliceWords W V n) : v < 2 ^ W := by
  obtain ⟨j, -, rfl⟩ := List.mem_map.1 h
  exact wordSlice_lt hW V j

/-- The words of a number up to `m + k`: those up to `m`, then those of what lies above them. -/
theorem sliceWords_add {W : Nat} (hW : 1 ≤ W) (V m k : Nat) :
    sliceWords W V (m + k) = sliceWords W V m ++ sliceWords W (V / 2 ^ (m * W)) k := by
  have h : ∀ j, wordSlice W V (m + j) = wordSlice W (V / 2 ^ (m * W)) j := by
    intro j
    rw [wordSlice_eq hW, wordSlice_eq hW, Nat.div_div_eq_div_mul, ← Nat.pow_add]
    congr 3
    ring
  simp [sliceWords, List.range_add, h, Function.comp_def]

/-- Two numbers that agree below bit `n*W` have the same first `n` words. -/
theorem sliceWords_congr {W : Nat} (hW : 1 ≤ W) {V V' n : Nat}
    (h : ∀ k < n * W, V.testBit k = V'.testBit k) : sliceWords W V n = sliceWords W V' n := by
  apply List.map_congr_left
  intro j hj
  apply Nat.eq_of_testBit_eq
  intro i
  rw [wordSlice_testBit hW, wordSlice_testBit hW]
  by_cases hi : i < W
  · have hj' : j + 1 ≤ n := by simpa using hj
    have : (j + 1) * W ≤ n * W := Nat.mul_le_mul_right W hj'
    rw [h (j * W + i) (by linarith [Nat.add_mul j 1 W])]
  · simp [hi]

/-! ### Codeword values -/

theorem bitsValue_testBit (l : List Bool) (k : Nat) : (bitsValue l).testBit k = l.getD k false := by
  induction l generalizing k with
  | nil => simp [bitsValue]
  | cons b l ih =>
    cases k with
    | zero => cases b <;> simp [bitsValue, Nat.testBit_zero, Nat.add_mod]
    | succ k =>
      have h : (b.toNat + 2 * bitsValue l) / 2 = bitsValue l := by
        cases b
        · simp
        · simp only [Bool.toNat_true]; omega
      rw [Nat.testBit_succ, bitsValue, h, ih]
      simp

theorem bitsValue_lt (l : List Bool) : bitsValue l < 2 ^ l.length := by
  induction l with
  | nil => simp [bitsValue]
  | cons b l ih =>
    have hb : b.toNat ≤ 1 := by cases b <;> simp
    simp only [bitsValue, List.length_cons, Nat.pow_succ]
    omega

@[simp] theorem bitString_length (p : Params) (e : RawEntry) : (bitString p e).length = e.length := by
  simp [bitString]

theorem cwval_lt (p : Params) (e : RawEntry) : cwval p e < 2 ^ e.length := by
  simpa [cwval] using bitsValue_lt (bitString p e)

/-- The bits of a codeword's value: its codeword bits below `length`, 0 above (00_scope.md R14). -/
theorem cwval_testBit (p : Params) (e : RawEntry) (k : Nat) :
    (cwval p e).testBit k = (decide (k < e.length) && cwbit p e k) := by
  rw [cwval, bitsValue_testBit, List.getD_eq_getElem?_getD]
  by_cases h : k < e.length
  · simp [bitString, h]
  · simp [h]

/-! ### The masked codeword (40_lookup.md R76, R78) -/

theorem NW_mul_W_ge (p : Params) : p.MAX_BITS ≤ p.NW * p.W := by
  have h := Nat.div_add_mod (p.MAX_BITS + p.W - 1) p.W
  have h' := Nat.mod_lt (p.MAX_BITS + p.W - 1) p.W_pos
  have : p.W * p.NW = p.NW * p.W := Nat.mul_comm _ _
  unfold Params.NW at *
  have := p.W_pos
  omega

/-- Bit `i` of masked word `j`: the content's bit where its codeword position is below `length`, else 0. -/
theorem maskWord_testBit (p : Params) (e : RawEntry) (j i : Nat) :
    (maskWord p e j).testBit i =
      (decide (i < p.W ∧ j * p.W + i < e.length) && (e.content.getD j 0).testBit i) := by
  rw [maskWord, trunc, Nat.testBit_mod_two_pow]
  congr 1
  simp only [decide_eq_decide]
  omega

theorem maskWord_lt (p : Params) (e : RawEntry) (j : Nat) : maskWord p e j < 2 ^ p.W :=
  lt_of_lt_of_le (Nat.mod_lt _ (Nat.two_pow_pos _)) (Nat.pow_le_pow_right (by decide) (Nat.min_le_left _ _))

/-- Masked word `j` is word `j` of the codeword's value. -/
theorem maskWord_eq (p : Params) (e : RawEntry) (j : Nat) : maskWord p e j = wordSlice p.W (cwval p e) j := by
  apply Nat.eq_of_testBit_eq
  intro i
  rw [maskWord_testBit, wordSlice_testBit p.W_pos, cwval_testBit]
  by_cases hi : i < p.W
  · have hd : (j * p.W + i) / p.W = j := by
      rw [Nat.mul_comm, Nat.mul_add_div p.W_pos, Nat.div_eq_of_lt hi, Nat.add_zero]
    have hm : (j * p.W + i) % p.W = i := by
      rw [Nat.mul_comm, Nat.mul_add_mod, Nat.mod_eq_of_lt hi]
    simp [hi, cwbit, hd, hm]
  · simp [hi]

@[simp] theorem mask_length (p : Params) (e : RawEntry) : (mask p e).length = p.NW := by simp [mask]

/-- Everything `mword` answers for a masked entry of legal length: at every index, the word of the codeword's
value there; past the end that is 0. -/
theorem mword_mask {p : Params} {e : RawEntry} (h : e.length ≤ p.MAX_BITS) (j : Nat) :
    mword p (mask p e) j = wordSlice p.W (cwval p e) j := by
  by_cases hj : j < p.NW
  · simp [mword, hj, mask, maskWord_eq]
  · have hle : e.length ≤ j * p.W :=
      le_trans h (le_trans (NW_mul_W_ge p) (Nat.mul_le_mul_right _ (Nat.le_of_not_lt hj)))
    have : cwval p e < 2 ^ (j * p.W) :=
      lt_of_lt_of_le (cwval_lt p e) (Nat.pow_le_pow_right (by decide) hle)
    simp [mword, hj, wordSlice_eq p.W_pos, Nat.div_eq_of_lt this]

end Sys2Proof.Machine
end

