-- ==== Sys2Proof/Laws/Encoding.lean ====
section
/-! SUPPORT. The fields of a command word and of a response word, read back from the word built of them. -/

namespace Sys2Proof.Machine

/-- The high two bits of a two-bit number above a byte. -/
theorem extract_high_append (k : BitVec 2) (b : BitVec 8) : BitVec.extractLsb' 8 2 (k ++ b) = k := by
  have hb := b.isLt
  have hk := k.isLt
  apply BitVec.eq_of_toNat_eq
  rw [BitVec.extractLsb'_toNat, BitVec.toNat_append, ← Nat.shiftLeft_add_eq_or_of_lt hb, Nat.shiftLeft_eq,
    Nat.shiftRight_eq_div_pow]
  omega

/-- The low byte of a two-bit number above a byte. -/
theorem extract_low_append (k : BitVec 2) (b : BitVec 8) : BitVec.extractLsb' 0 8 (k ++ b) = b := by
  have hb := b.isLt
  have hk := k.isLt
  apply BitVec.eq_of_toNat_eq
  rw [BitVec.extractLsb'_toNat, BitVec.toNat_append, ← Nat.shiftLeft_add_eq_or_of_lt hb, Nat.shiftLeft_eq,
    Nat.shiftRight_eq_div_pow]
  omega

/-- A ten-bit word is its high two bits above its low byte. -/
theorem append_extract (w : BitVec 10) : BitVec.extractLsb' 8 2 w ++ BitVec.extractLsb' 0 8 w = w := by
  have hw := w.isLt
  have hb := (BitVec.extractLsb' 0 8 w).isLt
  apply BitVec.eq_of_toNat_eq
  rw [BitVec.toNat_append, ← Nat.shiftLeft_add_eq_or_of_lt hb, Nat.shiftLeft_eq]
  simp only [BitVec.extractLsb'_toNat, Nat.shiftRight_eq_div_pow]
  omega

/-- A two-bit number is one of four. -/
theorem two_bits_cases (k : BitVec 2) : k = 0 ∨ k = 1 ∨ k = 2 ∨ k = 3 := by
  revert k; decide

@[simp] theorem opField_append (k : BitVec 2) (b : BitVec 8) : opField (k ++ b) = k := extract_high_append k b

@[simp] theorem symField_append (k : BitVec 2) (b : BitVec 8) : symField (k ++ b) = b := extract_low_append k b

/-- A command word is its operation selector above its symbol field. -/
theorem fields_append (w : CommandWord) : opField w ++ symField w = w := append_extract w

@[simp] theorem status_ofCode_code (st : Status) : Status.ofCode st.code = st := by cases st <;> rfl

@[simp] theorem status_code_ofCode (c : BitVec 2) : (Status.ofCode c).code = c := by
  revert c; decide

end Sys2Proof.Machine
end

