-- ==== Sys2Proof/Laws/Merge.lean ====
section
/-! SUPPORT. What the merge loop and the whole merge do, said once: they cut the pending bits followed by the
codeword bits into words (41_merge.md R84 to R88). -/

namespace Sys2Proof.Machine

variable {p : Params} {m : List Word} {C off : Nat}

/-- One iteration: the emitted word is the lowest word of what is pending. -/
theorem mergeWord_eq (hm : ∀ j, mword p m j = wordSlice p.W C j) {b : Word} (w : Nat) :
    mergeWord p off m w b = wordSlice p.W (b ||| (C / 2 ^ (w * p.W)) <<< off) 0 := by
  apply Nat.eq_of_testBit_eq
  intro i
  rw [mergeWord, trunc, Nat.testBit_mod_two_pow, wordSlice_testBit p.W_pos]
  by_cases hi : i < p.W
  · simp only [hi, decide_true, Bool.true_and, Nat.testBit_or, Nat.testBit_shiftLeft, hm,
      wordSlice_testBit p.W_pos, Nat.testBit_div_two_pow]
    have : i - off < p.W := by omega
    simp [this, Nat.add_comm]
  · simp [hi]

/-- One iteration: the carry, with the codeword bits not yet reached above it, is what is pending above the word
that was emitted. -/
theorem mergeCarry_eq (hm : ∀ j, mword p m j = wordSlice p.W C j) (hoff : off < p.W) {b : Word}
    (hb : b < 2 ^ p.W) (w : Nat) :
    mergeCarry p off m w ||| (C / 2 ^ ((w + 1) * p.W)) <<< off = (b ||| (C / 2 ^ (w * p.W)) <<< off) / 2 ^ p.W := by
  have hc : mergeCarry p off m w = mword p m w >>> (p.W - off) := by
    unfold mergeCarry
    split
    · next h =>
      have : mword p m w < 2 ^ p.W := by rw [hm]; exact wordSlice_lt p.W_pos C w
      rw [h, Nat.sub_zero, Nat.shiftRight_eq_div_pow, Nat.div_eq_of_lt this]
    · rfl
  apply Nat.eq_of_testBit_eq
  intro i
  have hbi : b.testBit (i + p.W) = false :=
    Nat.testBit_lt_two_pow (lt_of_lt_of_le hb (Nat.pow_le_pow_right (by decide) (by omega)))
  rw [hc, Nat.testBit_or, Nat.testBit_shiftRight, Nat.testBit_shiftLeft, hm, wordSlice_testBit p.W_pos,
    Nat.testBit_div_two_pow, Nat.testBit_div_two_pow, Nat.testBit_or, hbi, Nat.testBit_shiftLeft,
    Nat.testBit_div_two_pow]
  by_cases hi : i < off
  · have h1 : p.W - off + i < p.W := by omega
    have h2 : ¬ off ≤ i := by omega
    have h3 : off ≤ i + p.W := by omega
    have h4 : w * p.W + (p.W - off + i) = i + p.W - off + w * p.W := by omega
    simp [h1, h2, h3, h4]
  · have h1 : ¬ (p.W - off + i < p.W) := by omega
    have h2 : off ≤ i := by omega
    have h3 : off ≤ i + p.W := by omega
    have h4 : i - off + (w + 1) * p.W = i + p.W - off + w * p.W := by
      rw [Nat.add_mul]; omega
    simp [h1, h2, h3, h4]

theorem mergeCarry_lt (hm : ∀ j, mword p m j = wordSlice p.W C j) (w : Nat) :
    mergeCarry p off m w < 2 ^ p.W := by
  have : mword p m w < 2 ^ p.W := by rw [hm]; exact wordSlice_lt p.W_pos C w
  unfold mergeCarry
  split
  · exact Nat.two_pow_pos _
  · exact lt_of_le_of_lt (by rw [Nat.shiftRight_eq_div_pow]; exact Nat.div_le_self _ _) this

/-- The whole loop: the words emitted are the lowest words of what is pending. -/
theorem mergeLoop_words (hm : ∀ j, mword p m j = wordSlice p.W C j) (hoff : off < p.W) (k w : Nat) {b : Word}
    (hb : b < 2 ^ p.W) :
    (mergeLoop p off m k w b).1 = sliceWords p.W (b ||| (C / 2 ^ (w * p.W)) <<< off) k := by
  induction k generalizing w b with
  | zero => rfl
  | succ k ih =>
    rw [mergeLoop, sliceWords_cons p.W_pos, ← mergeCarry_eq hm hoff hb, ← mergeWord_eq hm]
    simp only [ih (w + 1) (mergeCarry_lt hm w)]

/-- The loop and the tail: the buffer is the next word of what is pending. -/
theorem mergeLoop_tail (hm : ∀ j, mword p m j = wordSlice p.W C j) (hoff : off < p.W) (k w : Nat) {b : Word}
    (hb : b < 2 ^ p.W) :
    mergeTail p off m (w + k) (mergeLoop p off m k w b).2
      = wordSlice p.W (b ||| (C / 2 ^ (w * p.W)) <<< off) k := by
  induction k generalizing w b with
  | zero =>
    rw [← Nat.mod_eq_of_lt (wordSlice_lt p.W_pos (b ||| (C / 2 ^ (w * p.W)) <<< off) 0),
      ← mergeWord_eq hm, mergeLoop, mergeTail, mergeWord, trunc, trunc, Nat.mod_mod]
    apply Nat.eq_of_testBit_eq
    intro i
    rw [Nat.testBit_or, Nat.testBit_mod_two_pow, Nat.testBit_mod_two_pow, Nat.testBit_or]
    by_cases hi : i < p.W
    · simp [hi]
    · have : b.testBit i = false :=
        Nat.testBit_lt_two_pow (lt_of_lt_of_le hb (Nat.pow_le_pow_right (by decide) (by omega)))
      simp [hi, this]
  | succ k ih =>
    have h : w + (k + 1) = w + 1 + k := by omega
    rw [mergeLoop, h]
    simp only [ih (w + 1) (mergeCarry_lt hm w)]
    rw [mergeCarry_eq hm hoff hb, wordSlice_eq p.W_pos, wordSlice_eq p.W_pos, Nat.div_div_eq_div_mul, ← Nat.pow_add]
    congr 3
    ring

/-- What is pending above the complete words fits in one word. -/
theorem pending_div_lt {W buf len : Nat} (hW : 1 ≤ W) (hbuf : buf < 2 ^ W)
    (hC : C < 2 ^ len) : (buf ||| C <<< off) / 2 ^ ((off + len) / W * W) < 2 ^ W := by
  have hd := Nat.div_add_mod (off + len) W
  have hr := Nat.mod_lt (off + len) (show W > 0 by omega)
  have hmul : W * ((off + len) / W) = (off + len) / W * W := Nat.mul_comm _ _
  have hS : C <<< off < 2 ^ (off + len) := by
    rw [Nat.shiftLeft_eq, Nat.pow_add, Nat.mul_comm]
    exact Nat.mul_lt_mul_of_pos_left hC (Nat.two_pow_pos off)
  have hV : buf ||| C <<< off < 2 ^ ((off + len) / W * W + W) := by
    apply Nat.or_lt_two_pow
    · exact lt_of_lt_of_le hbuf (Nat.pow_le_pow_right (by decide) (by omega))
    · exact lt_of_lt_of_le hS (Nat.pow_le_pow_right (by decide) (by omega))
  rw [Nat.div_lt_iff_lt_mul (Nat.two_pow_pos _), ← Nat.pow_add, Nat.add_comm]
  exact hV

/-- Everything a merge does to the state, when the registers are in their ranges: the pending bits followed by the
codeword bits, cut into complete words and the remainder. -/
theorem mergeCodeword_eq {s : State} {e : RawEntry} (he : e.length ≤ s.cfg.params.MAX_BITS)
    (ha : AccTyped s.cfg.params s.acc) :
    mergeCodeword e.length (mask s.cfg.params e) s =
      let V := s.acc.buffer ||| cwval s.cfg.params e <<< s.acc.offset
      let n := (s.acc.offset + e.length) / s.cfg.params.W
      { s with acc := ⟨V / 2 ^ (n * s.cfg.params.W), (s.acc.offset + e.length) % s.cfg.params.W⟩,
               out := s.out ++ sliceWords s.cfg.params.W V n,
               offset_lt := Nat.mod_lt _ s.cfg.params.W_pos } := by
  have hm := mword_mask he
  have hw := mergeLoop_words hm ha.1 ((s.acc.offset + e.length) / s.cfg.params.W) 0 ha.2
  have ht := mergeLoop_tail hm ha.1 ((s.acc.offset + e.length) / s.cfg.params.W) 0 ha.2
  have hlt := pending_div_lt (off := s.acc.offset) s.cfg.params.W_pos ha.2 (cwval_lt s.cfg.params e)
  simp only [Nat.zero_mul, Nat.pow_zero, Nat.div_one, Nat.zero_add] at hw ht
  rw [wordSlice_eq s.cfg.params.W_pos, Nat.mod_eq_of_lt hlt] at ht
  simp only [mergeCodeword, mergeCount, hw, ht, emitAll, setAcc]

end Sys2Proof.Machine
end

