-- ==== Sys2Proof/Laws/TableSpace.lean ====
section
/-! SUPPORT. The laws of the table space: the canonical form is kept, read after write, and what the table check
says. -/

namespace Sys2Proof.Machine

/-- An unlisted symbol reads as the sentinel. -/
theorem read_of_canonicalFrom_lt {p : Params} {t : Table} {lo sym : Nat} (h : t.canonicalFrom p lo = true)
    (hs : sym < lo) : t.read p sym = RawEntry.sentinel p := by
  induction t generalizing lo with
  | nil => rfl
  | cons c rest ih =>
    obtain ⟨k, e⟩ := c
    simp only [Table.canonicalFrom, Bool.and_eq_true, decide_eq_true_eq] at h
    have hne : k ≠ sym := by omega
    rw [Table.read, if_neg hne]
    exact ih h.2 (by omega)

theorem canonicalFrom_mono {p : Params} {t : Table} {lo lo' : Nat} (h : t.canonicalFrom p lo = true)
    (hl : lo' ≤ lo) : t.canonicalFrom p lo' = true := by
  cases t with
  | nil => rfl
  | cons c rest =>
    simp only [Table.canonicalFrom, Bool.and_eq_true, decide_eq_true_eq] at h ⊢
    exact ⟨⟨⟨le_trans hl h.1.1.1, h.1.1.2⟩, h.1.2⟩, h.2⟩

/-- The caller's write keeps the canonical form of the table. -/
theorem write_canonicalFrom {p : Params} {t : Table} {lo sym : Nat} {e : RawEntry}
    (h : t.canonicalFrom p lo = true) (hlo : lo ≤ sym) (hs : sym < NSYM) :
    (Table.write p sym e t).canonicalFrom p lo = true := by
  induction t generalizing lo with
  | nil =>
    by_cases he : e = RawEntry.sentinel p
    · simp [Table.write, he, Table.canonicalFrom]
    · simp [Table.write, he, Table.canonicalFrom, hlo, hs]
  | cons c rest ih =>
    obtain ⟨k, e'⟩ := c
    have hc := h
    simp only [Table.canonicalFrom, Bool.and_eq_true, decide_eq_true_eq] at h
    by_cases hk : k < sym
    · simp only [Table.write, if_pos hk, Table.canonicalFrom, Bool.and_eq_true, decide_eq_true_eq]
      exact ⟨h.1, ih h.2 hk⟩
    · have habove : Table.canonicalFrom p (sym + 1) (if k = sym then rest else (k, e') :: rest) = true := by
        by_cases hks : k = sym
        · subst hks; simpa using h.2
        · rw [if_neg hks]
          simp only [Table.canonicalFrom, Bool.and_eq_true, decide_eq_true_eq]
          exact ⟨⟨⟨by omega, h.1.1.2⟩, h.1.2⟩, h.2⟩
      by_cases he : e = RawEntry.sentinel p
      · simp only [Table.write, if_neg hk, if_pos he]
        exact canonicalFrom_mono habove (by omega)
      · simp only [Table.write, if_neg hk, if_neg he, Table.canonicalFrom, Bool.and_eq_true, decide_eq_true_eq]
        exact ⟨⟨⟨hlo, hs⟩, he⟩, habove⟩

/-- Read after the caller's write: the written symbol gives the entry, every other symbol what it gave before. -/
theorem read_write {p : Params} {t : Table} {lo sym : Nat} {e : RawEntry}
    (h : t.canonicalFrom p lo = true) (sym' : Nat) :
    (Table.write p sym e t).read p sym' = if sym' = sym then e else t.read p sym' := by
  induction t generalizing lo with
  | nil =>
    by_cases he : e = RawEntry.sentinel p <;> by_cases hs : sym' = sym <;>
      simp [Table.write, he, Table.read, hs, eq_comm]
    omega
  | cons c rest ih =>
    obtain ⟨k, e'⟩ := c
    simp only [Table.canonicalFrom, Bool.and_eq_true, decide_eq_true_eq] at h
    have hrest : ∀ x, x ≤ k → Table.read p rest x = RawEntry.sentinel p := fun x hx =>
      read_of_canonicalFrom_lt h.2 (by omega)
    by_cases hk : k < sym
    · simp only [Table.write, if_pos hk, Table.read]
      by_cases hx : k = sym'
      · have : sym' ≠ sym := by omega
        simp [hx, this]
      · simp [hx, ih h.2]
    · by_cases he : e = RawEntry.sentinel p
      · simp only [Table.write, if_neg hk, if_pos he]
        by_cases hs : sym' = sym
        · subst hs
          by_cases hks : k = sym'
          · simp [hks, hrest sym' (by omega), he]
          · simp [hks, Table.read, hrest sym' (by omega), he]
        · by_cases hks : k = sym
          · simp only [if_pos hks, if_neg hs, Table.read]
            rw [if_neg (by omega)]
          · simp only [if_neg hks, if_neg hs]
      · simp only [Table.write, if_neg hk, if_neg he, Table.read]
        by_cases hs : sym' = sym
        · simp [hs]
        · rw [if_neg (by omega), if_neg hs]
          by_cases hks : k = sym
          · simp only [if_pos hks]
            rw [if_neg (by omega)]
          · simp only [if_neg hks, Table.read]

/-- What the table check says, once: accepted means that every entry is short enough. -/
theorem tableCheck_accepted_iff (cfg : Config) :
    tableCheck cfg = .accepted ↔ ∀ k < NSYM, (cfg.table.read cfg.params k).length ≤ cfg.params.MAX_BITS := by
  unfold tableCheck
  cases h : (List.range NSYM).find? _ with
  | none =>
    have := List.find?_eq_none.1 h
    simpa using this
  | some s =>
    have h1 := List.find?_some h
    have h2 := List.mem_of_find?_eq_some h
    simp only [decide_eq_true_eq, List.mem_range] at h1 h2
    simp only [reduceCtorEq, false_iff, not_forall]
    exact ⟨s, h2, by omega⟩

/-- Every symbol indexes one of the 256 entries. -/
theorem tableIndex_lt (sym : Symbol) : tableIndex sym < NSYM := sym.isLt

/-- A well-formed configuration has a well-formed table. -/
theorem tableWellFormed_of_wf {cfg : Config} (h : cfg.wf = true) : TableWellFormed cfg := by
  simp only [Config.wf, Bool.and_eq_true, decide_eq_true_eq] at h
  exact fun sym => (tableCheck_accepted_iff cfg).1 h.2 _ (tableIndex_lt sym)

end Sys2Proof.Machine
end

