-- ==== Sys2Proof/Laws/Exec.lean ====
section
/-! SUPPORT. What each command, one step and a run can do, said once. -/

namespace Sys2Proof.Machine

/-! ### The lookup stage and the commands -/

/-- The three answers of the lookup stage. -/
theorem lookup_cases (cfg : Config) (sym : Symbol) :
    ((tblRead cfg sym).length = 0 ∧ lookup cfg sym = .unassigned) ∨
    (cfg.params.MAX_BITS < (tblRead cfg sym).length ∧ lookup cfg sym = .tooLong) ∨
    (0 < (tblRead cfg sym).length ∧ (tblRead cfg sym).length ≤ cfg.params.MAX_BITS ∧
      lookup cfg sym = .assigned (tblRead cfg sym).length (mask cfg.params (tblRead cfg sym))) := by
  unfold lookup isUnassigned isTooLong
  by_cases h0 : (tblRead cfg sym).length = 0
  · simp [h0]
  · by_cases h1 : cfg.params.MAX_BITS < (tblRead cfg sym).length
    · simp [h0, h1]
    · right; right
      simp [h0, h1]
      omega

theorem isUnassigned_iff (e : RawEntry) : isUnassigned e = true ↔ e.length = 0 := by simp [isUnassigned]

theorem execMerge_unassigned {s : State} {sym : Symbol} (h : (tblRead s.cfg sym).length = 0) :
    execMerge sym s = .next (respond .unassignedSymbol sym s) := by
  unfold execMerge
  rcases lookup_cases s.cfg sym with ⟨-, hl⟩ | ⟨h', -⟩ | ⟨h', -, -⟩
  · rw [hl]; rfl
  · omega
  · omega

theorem execMerge_assigned {s : State} {sym : Symbol} (h : 0 < (tblRead s.cfg sym).length)
    (hmax : (tblRead s.cfg sym).length ≤ s.cfg.params.MAX_BITS) :
    execMerge sym s = .next (respond .ok 0
      (mergeCodeword (tblRead s.cfg sym).length (mask s.cfg.params (tblRead s.cfg sym)) s)) := by
  unfold execMerge
  rcases lookup_cases s.cfg sym with ⟨h', -⟩ | ⟨h', -⟩ | ⟨-, -, hl⟩
  · omega
  · omega
  · rw [hl]

/-- Everything a merge changes beside its accumulator and its words: nothing. -/
theorem mergeCodeword_frame (len : Nat) (m : List Word) (s : State) :
    (mergeCodeword len m s).cfg = s.cfg ∧ (mergeCodeword len m s).resp = s.resp ∧
      (mergeCodeword len m s).inputs = s.inputs := by
  simp [mergeCodeword]

/-- What a command that answers a next state has done. -/
theorem exec_cases {i : Instr} {s t : State} (h : exec i s = .next t) :
    (∃ sym, i = .merge sym ∧ (tblRead s.cfg sym).length = 0 ∧ t = respond .unassignedSymbol sym s) ∨
    (∃ sym, i = .merge sym ∧ 0 < (tblRead s.cfg sym).length ∧
      (tblRead s.cfg sym).length ≤ s.cfg.params.MAX_BITS ∧
      t = respond .ok 0 (mergeCodeword (tblRead s.cfg sym).length (mask s.cfg.params (tblRead s.cfg sym)) s)) ∨
    (∃ sym, i = .flush sym ∧ s.acc.offset = 0 ∧ t = respond .ok 0 (clearAcc s)) ∨
    (∃ sym, i = .flush sym ∧ 0 < s.acc.offset ∧ t = respond .ok 0 (clearAcc (emit s.acc.buffer s))) ∨
    (∃ sym, i = .init sym ∧ t = respond .ok 0 (clearAcc s)) ∨
    (∃ sym, i = .rsvd3 sym ∧ t = respond .illegalCommand sym s) := by
  cases i with
  | merge sym =>
    have h' : execMerge sym s = .next t := h
    unfold execMerge at h'
    rcases lookup_cases s.cfg sym with ⟨h0, hl⟩ | ⟨-, hl⟩ | ⟨h0, h1, hl⟩ <;> rw [hl] at h'
    · exact .inl ⟨sym, rfl, h0, (Host.Outcome.next.inj h').symm⟩
    · cases h'
    · exact .inr (.inl ⟨sym, rfl, h0, h1, (Host.Outcome.next.inj h').symm⟩)
  | flush sym =>
    have h' := (Host.Outcome.next.inj h).symm
    rcases Nat.eq_zero_or_pos s.acc.offset with h0 | h0
    · exact .inr (.inr (.inl ⟨sym, rfl, h0, by simpa [nothingPending, h0] using h'⟩))
    · have : s.acc.offset ≠ 0 := by omega
      exact .inr (.inr (.inr (.inl ⟨sym, rfl, h0, by simpa [nothingPending, this] using h'⟩)))
  | init sym => exact .inr (.inr (.inr (.inr (.inl ⟨sym, rfl, (Host.Outcome.next.inj h).symm⟩))))
  | rsvd3 sym => exact .inr (.inr (.inr (.inr (.inr ⟨sym, rfl, (Host.Outcome.next.inj h).symm⟩))))

/-! ### One step -/

/-- What a step that answers a next state has done: it waited, applied a reset, or ran one command. -/
theorem step_cases {s t : State} (h : step s = .next t) :
    (s.inputs = [] ∧ t = s) ∨
    (∃ rest, s.inputs = .reset :: rest ∧ t = clearAcc { s with inputs := rest }) ∨
    (∃ w rest, s.inputs = .command w :: rest ∧ exec (decode w) { s with inputs := rest } = .next t) := by
  unfold step takeInput at h
  cases hin : s.inputs with
  | nil =>
    rw [hin] at h
    exact .inl ⟨rfl, (Host.Outcome.next.inj h).symm⟩
  | cons x rest =>
    rw [hin] at h
    cases x with
    | reset => exact .inr (.inl ⟨rest, rfl, (Host.Outcome.next.inj h).symm⟩)
    | command w => exact .inr (.inr ⟨w, rest, rfl, h⟩)

/-! ### Runs -/

@[simp] theorem run_zero (s : State) : run 0 s = .next s := rfl

theorem run_succ (k : Nat) (s : State) : run (k + 1) s = andThen (step s) (run k) := rfl

/-- The model's run is the run of the host's interface. -/
theorem run_eq_core (k : Nat) (s : State) : run k s = Sys2Proof.core.run k s := by
  induction k generalizing s with
  | zero => rfl
  | succ k ih =>
    rw [run_succ]
    refine Eq.trans ?_ (Host.Core.run.eq_2 Sys2Proof.core s k).symm
    show andThen (Sys2Proof.core.step s) _ = _
    cases Sys2Proof.core.step s with
    | next t => exact ih t
    | fault r => rfl
    | refused r => rfl

@[simp] theorem andThen_next (t : State) (f : State → Host.Outcome State Fault Refusal) :
    andThen (.next t) f = f t := rfl

theorem andThen_assoc (o : Host.Outcome State Fault Refusal) (f g : State → Host.Outcome State Fault Refusal) :
    andThen (andThen o f) g = andThen o fun t => andThen (f t) g := by
  cases o <;> rfl

/-- A run of `j + k` steps is `j` steps and then `k`. -/
theorem run_add (j k : Nat) (s : State) : run (j + k) s = andThen (run j s) (run k) := by
  induction j generalizing s with
  | zero => simp
  | succ j ih =>
    rw [Nat.add_right_comm, run_succ, run_succ, andThen_assoc]
    congr 1
    funext t
    exact ih t

/-! ### Session sums -/

theorem sessionLength_append (cfg : Config) (a b : List Symbol) :
    sessionLength cfg (a ++ b) = sessionLength cfg a + sessionLength cfg b := by
  induction a with
  | nil => simp [sessionLength]
  | cons x a ih => simp [sessionLength, ih]; omega

theorem sessionValue_append (cfg : Config) (a b : List Symbol) :
    sessionValue cfg (a ++ b) = sessionValue cfg a + 2 ^ sessionLength cfg a * sessionValue cfg b := by
  induction a with
  | nil => simp [sessionLength, sessionValue]
  | cons x a ih => simp [sessionLength, sessionValue, ih, Nat.pow_add]; ring

theorem sessionValue_lt (cfg : Config) (a : List Symbol) : sessionValue cfg a < 2 ^ sessionLength cfg a := by
  induction a with
  | nil => simp [sessionLength, sessionValue]
  | cons x a ih =>
    have hc := cwval_lt cfg.params (tblRead cfg x)
    have h := Nat.mul_le_mul_left (2 ^ (tblRead cfg x).length) (Nat.succ_le_of_lt ih)
    simp only [sessionLength, sessionValue, Nat.pow_add]
    rw [Nat.succ_eq_add_one, Nat.mul_add] at h
    omega

end Sys2Proof.Machine
end

