-- ==== Sys2Proof/Laws/PerInstr.lean ====
section
/-! SUPPORT. Statements about every instruction as syntax, one lemma per constructor. -/

namespace Sys2Proof.Laws.TableRow

/-- The instruction's command word matches its row of the opcode table under the mask (30_encoding.md R60, R65). -/
def Statement (i : Instr) : Prop :=
  ∃ row ∈ opcodeTable, row.mnemonic = i.mnemonic ∧ encode i &&& row.mask = row.pattern

/-- A two-bit number above a byte, under the mask 0x300, is that number above a zero byte. -/
theorem mask_append (k : BitVec 2) (b : BitVec 8) : (k ++ b) &&& (0x300 : BitVec 10) = k ++ (0 : BitVec 8) := by
  show (k ++ b : BitVec (2 + 8)) &&& ((3 : BitVec 2) ++ (0 : BitVec 8)) = k ++ (0 : BitVec 8)
  rw [BitVec.and_append]
  congr 1
  · revert k; decide
  · simp

theorem merge (sym : Symbol) : Statement (.merge sym) := ⟨_, .head _, rfl, mask_append 0 sym⟩
theorem flush (sym : Symbol) : Statement (.flush sym) := ⟨_, .tail _ (.head _), rfl, mask_append 1 sym⟩
theorem init (sym : Symbol) : Statement (.init sym) := ⟨_, .tail _ (.tail _ (.head _)), rfl, mask_append 2 sym⟩
theorem rsvd3 (sym : Symbol) : Statement (.rsvd3 sym) :=
  ⟨_, .tail _ (.tail _ (.tail _ (.head _))), rfl, mask_append 3 sym⟩

end Sys2Proof.Laws.TableRow

namespace Sys2Proof.Laws.WordFields

/-- The number of the operation (30_encoding.md R59). -/
def opOf : Instr → BitVec 2
  | .merge _ => 0
  | .flush _ => 1
  | .init _ => 2
  | .rsvd3 _ => 3

/-- The eight bits an instruction keeps of its command word (30_encoding.md R57). -/
def symOf : Instr → Symbol
  | .merge sym => sym
  | .flush sym => sym
  | .init sym => sym
  | .rsvd3 sym => sym

/-- The fields of the instruction's command word are its operation and its symbol (30_encoding.md R57, R59), and
the instruction is well formed (30_encoding.md R58). -/
def Statement (i : Instr) : Prop :=
  opField (encode i) = opOf i ∧ symField (encode i) = symOf i ∧ i.wf = true

theorem merge (sym : Symbol) : Statement (.merge sym) :=
  ⟨Machine.opField_append _ _, Machine.symField_append _ _, rfl⟩
theorem flush (sym : Symbol) : Statement (.flush sym) :=
  ⟨Machine.opField_append _ _, Machine.symField_append _ _, rfl⟩
theorem init (sym : Symbol) : Statement (.init sym) :=
  ⟨Machine.opField_append _ _, Machine.symField_append _ _, rfl⟩
theorem rsvd3 (sym : Symbol) : Statement (.rsvd3 sym) :=
  ⟨Machine.opField_append _ _, Machine.symField_append _ _, rfl⟩

end Sys2Proof.Laws.WordFields
end

