-- ==== Sys2Proof/Tests/Slice0.lean ====
section
/-! SUPPORT. The model's own tests: well-formedness checks refuse ill-formed terms, command words decode to what they
stand for, one or two vectors of spec/95_test_vectors.md per command, and for every statement with hypotheses a
witness that meets them. Expected values are the spec's. -/

namespace Sys2Proof.Tests

open Sys2Proof.Machine

/-! ### Tables and states -/

/-- `W = 4`, `MAX_BITS = 8`. -/
def p4 : Params := ⟨4, 8, by decide, by decide⟩

/-- A configuration from a list of symbols with lengths and content words. -/
def cfgOf (p : Params) (rows : List (Nat × Nat × List Word)) : Config :=
  ⟨p, rows.foldl (fun t r => Table.write p r.1 (RawEntry.ofWords p r.2.1 r.2.2) t) []⟩

/-- Rows of the spec's test table T4: A, B and G. -/
def cfg4 : Config := cfgOf p4 [(0x41, 1, [0x1]), (0x42, 2, [0x2]), (0x47, 8, [0x5, 0xA])]

/-- Rows of T1 and T2 at the default parameters: A, F, and the unclean entries 0x05 and 0x07. -/
def cfg8 : Config :=
  cfgOf Params.default [(0x41, 1, [0x01]), (0x46, 5, [0x1C]), (0x05, 7, [0xD5]), (0x07, 0, [0xFF])]

/-- A prefix code of two symbols: A `1` and B `01` in stream order. -/
def cfgAB : Config := cfgOf p4 [(0x41, 1, [0x1]), (0x42, 2, [0x2])]

/-- The rows of `cfg4` as a table nobody checked: G is longer than `MAX_BITS`. -/
def cfgBad : Config := cfgOf p4 [(0x41, 1, [0x1]), (0x47, 9, [0x5, 0xA])]

/-- A state in mid-session with nothing presented. -/
def at_ (cfg : Config) (buffer offset : Nat) (h : offset < cfg.params.W := by decide) : State :=
  { State.powerOn cfg with acc := ⟨buffer, offset⟩, offset_lt := h }

/-- A packer at power-on with inputs presented. -/
def withInputs (cfg : Config) (xs : List Input) : State := deliver xs (State.powerOn cfg)

/-- What a test looks at: accumulator, words and responses. -/
def seen (o : Host.Outcome State Fault Refusal) : Option (Nat × Nat × List Word × List Response) :=
  match o with
  | .next t => some (t.acc.buffer, t.acc.offset, t.out, t.resp)
  | .fault _ => none
  | .refused _ => none

/-! ### Well-formedness: each check refuses an ill-formed term -/

theorem test_params_refuse_zero_width : Params.of? 0 256 = none := by decide
theorem test_params_refuse_zero_bound : Params.of? 8 0 = none := by decide
theorem test_params_accept_default : Params.of? 8 256 = some Params.default := by decide
theorem test_entry_refuses_missing_word : RawEntry.typed p4 ⟨1, [1]⟩ = false := by decide
theorem test_entry_refuses_wide_word : RawEntry.typed p4 ⟨1, [16, 0]⟩ = false := by decide
theorem test_table_refuses_disorder :
    Table.wf p4 [(0x42, ⟨1, [1, 0]⟩), (0x41, ⟨1, [1, 0]⟩)] = false := by decide
theorem test_table_refuses_listed_sentinel : Table.wf p4 [(0x41, ⟨0, [0, 0]⟩)] = false := by decide
theorem test_table_refuses_symbol_256 : Table.wf p4 [(256, ⟨1, [1, 0]⟩)] = false := by decide
theorem test_config_refuses_long_codeword : cfgBad.wf = false := by decide
theorem test_tableCheck_names_the_symbol : tableCheck cfgBad = .codewordTooLong 0x47 := by decide
theorem test_config_accepts : cfg4.wf = true ∧ cfg8.wf = true ∧ cfgAB.wf = true := by decide

/-! ### Decoding: words written out from 30_encoding.md R57, R59, and V39 to V42b -/

theorem test_decode_merge : decode 0b0001000001 = .merge 0x41 := by decide
theorem test_decode_flush : decode 0b0101000001 = .flush 0x41 := by decide
theorem test_decode_init : decode 0b1011111111 = .init 0xFF := by decide
theorem test_decode_rsvd3 : decode 0b1110100111 = .rsvd3 0xA7 := by decide
theorem test_decodeRaw_rejects_by_name : decodeRaw 1024 = .error (.notACommandWord 1024) := by decide
theorem test_response_words :
    (Response.word ⟨.unassignedSymbol, 0x5A⟩, Response.word ⟨.illegalCommand, 0xA7⟩) = (0x15A, 0x2A7) := by decide
theorem test_packed_row_F : packRow Params.default (tblRead cfg8 0x46) = 0x3805 := by decide
theorem test_opcode_rows_disjoint :
    opcodeTable.Pairwise fun a b => a.mask = b.mask ∧ a.pattern ≠ b.pattern := by decide
theorem test_assemble_P2_lines :
    assemble [.pack ['A'], .chunk, .mergeChar 'Z', .cmd 0x3EE, .finish] = some [0x041, 0x05A, 0x3EE, 0x100] := by decide

/-! ### Commands: vectors of 95_test_vectors.md -/

/-- V33: `n = NW`, the tail index `NW` reads 0. -/
theorem test_merge_longest : seen (exec (.merge 0x47) (at_ cfg4 0x5 3)) =
    some (0x5, 3, [0xD, 0x2], [⟨.ok, 0⟩]) := by decide

/-- V20, first merge: the don't-care bit 7 of the entry is not seen. -/
theorem test_merge_masks : seen (exec (.merge 0x05) (at_ cfg8 0 0)) = some (0x55, 7, [], [⟨.ok, 0⟩]) := by decide

/-- V28: the `sym` field is ignored. -/
theorem test_flush_pending : seen (exec (.flush 0xFF) (at_ cfg8 0x7F 7)) =
    some (0, 0, [0x7F], [⟨.ok, 0⟩]) := by decide

/-- V27: an all-zero word is still emitted. -/
theorem test_flush_zero_word : seen (exec (.flush 0) (at_ cfg8 0 3)) = some (0, 0, [0], [⟨.ok, 0⟩]) := by decide

/-- V29: seven pending bits are lost. -/
theorem test_init_drops : seen (exec (.init 0) (at_ cfg8 0x31 7)) = some (0, 0, [], [⟨.ok, 0⟩]) := by decide

/-- V31, as one step from the command word. -/
theorem test_rsvd3_step : seen (step ((at_ cfg8 0x31 7).withFetchWord 16 0x3A7)) =
    some (0x31, 7, [], [⟨.illegalCommand, 0xA7⟩]) := by decide

/-- The first step after reset with a word placed (T1 with no symbol assigned: V24a). -/
theorem test_first_step_after_reset : seen (step (State.reset.withFetchWord 16 0x000)) =
    some (0, 0, [], [⟨.unassignedSymbol, 0⟩]) := by decide

/-- The lookup stage on V4: content is ignored at length 0. -/
theorem test_lookup_sentinel : lookup cfg8 0x07 = .unassigned := by decide

/-! ### Witnesses: the hypotheses of each statement can be met -/

theorem tableWellFormed_cfg4 : TableWellFormed cfg4 := tableWellFormed_of_wf (by decide)
theorem tableWellFormed_cfgAB : TableWellFormed cfgAB := tableWellFormed_of_wf (by decide)

theorem witness_DecodeEncodeAgree : (Instr.merge 0xFF).wf = true ∧ (Instr.rsvd3 0x00).wf = true := by decide

theorem witness_DecodeByOpField : (0x1FF : CommandWord).toNat / 256 = (0x100 : CommandWord).toNat / 256 := by decide

theorem witness_PlacedWordRunsNext :
    (10 ≤ 10 ∧ 1023 < 2 ^ 10 ∧ 1023 < 1024) ∧ (10 ≤ 16 ∧ 1024 < 2 ^ 16 ∧ 1024 ≤ 1024) := by decide

theorem witness_AssemblerWords : 255 < 256 ∧ 1023 < 1024 ∧
    (0x20 ≤ ' '.toNat ∧ ' '.toNat < 0x7F) ∧ 0x20 ≤ '~'.toNat ∧ '~'.toNat < 0x7F := by decide

/-- Each status is answered by some step. -/
theorem witness_ResponsePortFormat : ∃ t u v, step (withInputs cfg4 [.command 0x041]) = .next t ∧
    step (withInputs cfg4 [.command 0x05A]) = .next u ∧ step (withInputs cfg4 [.command 0x3A7]) = .next v ∧
    t.resp = [⟨.ok, 0⟩] ∧ u.resp = [⟨.unassignedSymbol, 0x5A⟩] ∧ v.resp = [⟨.illegalCommand, 0xA7⟩] :=
  ⟨_, _, _, rfl, rfl, rfl, by decide, by decide, by decide⟩

theorem witness_PackedRowRoundTrip :
    (tblRead cfg4 0x47).typed p4 = true ∧ (tblRead cfg4 0x47).length ≤ p4.MAX_BITS ∧ 1 < p4.NW ∧ 7 < p4.NW * p4.W := by
  decide

theorem witness_TableCheckVerdict : tableCheck cfgBad = .codewordTooLong 0x47 ∧ tableCheck cfg4 = .accepted := by decide

theorem witness_UnassignedIsLengthZero : TableWellFormed cfg4 ∧ 0 < (tblRead cfg4 0x47).length ∧
    lookup cfg4 0x5A = .unassigned :=
  ⟨tableWellFormed_cfg4, by decide⟩

/-- The three cases of a masked word: below, at and above `len div W`. -/
theorem witness_MaskedCodeword : (tblRead cfg4 0x41).typed p4 = true ∧ 0 < (tblRead cfg4 0x41).length ∧
    (tblRead cfg4 0x41).length ≤ p4.MAX_BITS ∧ 0 = (tblRead cfg4 0x41).length / p4.W ∧
    (tblRead cfg4 0x41).length / p4.W < 1 ∧ 1 < p4.NW ∧ 1 < (tblRead cfg4 0x47).length / p4.W := by decide

theorem witness_ReadPastEndIsZero : (mask p4 (tblRead cfg4 0x47)).length = p4.NW ∧ 3 < p4.W ∧ 8 ≤ p4.MAX_BITS ∧
    1 < p4.NW ∧ p4.NW ≤ 2 ∧ mergeCount p4 3 8 = p4.NW ∧ mergeCount p4 0 7 < p4.NW := by decide

/-- Rejected, and accepted at both ends of the lengths. -/
theorem witness_MergeFollowsPseudocode : (tblRead cfg4 0x5A).length = 0 ∧
    (0 < (tblRead cfg4 0x41).length ∧ (tblRead cfg4 0x41).length ≤ p4.MAX_BITS) ∧
    (0 < (tblRead cfg4 0x47).length ∧ (tblRead cfg4 0x47).length ≤ p4.MAX_BITS) := by
  decide

theorem witness_MergeClosedForm : 0 < (tblRead cfg4 0x47).length ∧ (tblRead cfg4 0x47).length ≤ p4.MAX_BITS ∧
    AccTyped p4 (at_ cfg4 5 3).acc ∧ (at_ cfg4 5 3).acc.buffer < 2 ^ (at_ cfg4 5 3).acc.offset := by decide

theorem witness_MergeKeepsAccInv : AccInv p4 (at_ cfg4 5 3).acc ∧ ∃ t, exec (.merge 0x47) (at_ cfg4 5 3) = .next t :=
  ⟨by decide, _, rfl⟩

theorem witness_MergeNewOffset : 0 < (tblRead cfg4 0x41).length ∧ (tblRead cfg4 0x41).length ≤ p4.MAX_BITS ∧
    AccInv p4 (at_ cfg4 7 3).acc ∧ p4.W ∣ (at_ cfg4 7 3).acc.offset + (tblRead cfg4 0x41).length := by decide

theorem witness_MergeMultipleOfWidth : 0 < 2 ∧ (tblRead cfg4 0x47).length = 2 * p4.W ∧
    (tblRead cfg4 0x47).length ≤ p4.MAX_BITS ∧ AccInv p4 (at_ cfg4 0 0).acc ∧ AccInv p4 (at_ cfg4 5 3).acc := by decide

theorem witness_MergeWordCount : 0 < (tblRead cfg4 0x41).length ∧ (tblRead cfg4 0x41).length ≤ p4.MAX_BITS ∧
    (at_ cfg4 1 2).acc.offset + (tblRead cfg4 0x41).length < p4.W ∧
    (at_ cfg4 5 3).acc.offset + (tblRead cfg4 0x41).length = p4.W := by decide

/-- The three clauses: a merge that emits, the largest word count, and `W` dividing `MAX_BITS`. -/
theorem witness_LongMergeKeepsTopBits : 0 < (tblRead cfg4 0x47).length ∧ (tblRead cfg4 0x47).length = p4.MAX_BITS ∧
    AccTyped p4 (at_ cfg4 5 3).acc ∧ p4.W ≤ (at_ cfg4 5 3).acc.offset + (tblRead cfg4 0x47).length ∧
    (at_ cfg4 5 3).acc.offset = p4.W - 1 ∧ p4.W ∣ p4.MAX_BITS := by decide

theorem witness_UnassignedMergeChangesNothing : (tblRead cfg4 0x5A).length = 0 ∧
    ∃ t, exec (.merge 0x5A) (at_ cfg4 5 3) = .next t ∧ t.resp = (at_ cfg4 5 3).resp ++ [⟨.unassignedSymbol, 0x5A⟩] :=
  ⟨by decide, _, rfl, by decide⟩

/-- The fault is raised in some state. -/
theorem witness_OnlyUncheckedTablesFault : exec (.merge 0x47) (at_ cfgBad 0 0) = .fault (.codewordTooLong 0x47) := by rfl

theorem witness_FlushTwiceEmitsOnce : (at_ cfg4 0 0).acc.offset = 0 := by decide

theorem witness_FlushPadding : AccInv p4 (at_ cfg4 0 0).acc ∧ AccInv p4 (at_ cfg4 5 3).acc := by decide

theorem witness_InitResult : (0x200 : CommandWord).toNat / 256 = 2 ∧ (0x2FF : CommandWord).toNat / 256 = 2 := by decide

theorem witness_ReservedCommandResult : (0x3A7 : CommandWord).toNat / 256 = 3 ∧ (0x3FF : CommandWord).toNat / 256 = 3 := by
  decide

theorem witness_CommandAnswerTable : TableWellFormed cfg4 ∧ 0 < (tblRead cfg4 0x41).length ∧
    (tblRead cfg4 0x5A).length = 0 ∧ 0 < (at_ cfg4 5 3).acc.offset ∧ (at_ cfg4 0 0).acc.offset = 0 :=
  ⟨tableWellFormed_cfg4, by decide⟩

theorem witness_WaysToTheInitialState : (withInputs cfg4 [.reset]).inputs = .reset :: [] := by decide

theorem witness_StepRunsDecodedCommand : (withInputs cfg4 [.command 0x041]).inputs = .command 0x041 :: [] ∧
    decode 0x041 = .merge 0x41 ∧ (Instr.merge 0x41).wf = true := by decide

theorem witness_ResetInputEffect : (withInputs cfg4 [.reset, .command 0]).inputs = .reset :: [.command 0] := by decide

/-- A rejected merge, an accepted one and a reserved command after the reset. -/
theorem witness_ResetState : TableWellFormed cfg4 ∧ ∀ w ∈ [(0x05A : CommandWord), 0x047, 0x3FF],
    (withInputs cfg4 [.reset, .command w]).inputs = .reset :: .command w :: [] :=
  ⟨tableWellFormed_cfg4, by decide⟩

theorem witness_PauseChangesNothing : (at_ cfg4 5 3).inputs = [] := by decide

theorem witness_EveryStepOnlyAppends : ∃ t, step (withInputs cfg4 [.command 0x047]) = .next t := ⟨_, rfl⟩

theorem witness_WordsPerCommand :
    (∃ t, exec (.merge 0x47) (at_ cfg4 5 3) = .next t) ∧ (∃ t, exec (.flush 0) (at_ cfg4 5 3) = .next t) ∧
    (∃ t, exec (.init 0) (at_ cfg4 5 3) = .next t) ∧ ∃ t, exec (.rsvd3 0) (at_ cfg4 5 3) = .next t :=
  ⟨⟨_, rfl⟩, ⟨_, rfl⟩, ⟨_, rfl⟩, ⟨_, rfl⟩⟩

/-- Each of the four writers changes an accumulator. -/
theorem witness_AccumulatorWriters :
    (∃ t, step (withInputs cfg4 [.command 0x041]) = .next t ∧ t.acc ≠ (withInputs cfg4 [.command 0x041]).acc) ∧
    (∃ t, step { at_ cfg4 5 3 with inputs := [.reset] } = .next t ∧ t.acc ≠ (at_ cfg4 5 3).acc) ∧
    (∃ t, step { at_ cfg4 5 3 with inputs := [.command 0x100] } = .next t ∧ t.acc ≠ (at_ cfg4 5 3).acc) ∧
    ∃ t, step { at_ cfg4 5 3 with inputs := [.command 0x200] } = .next t ∧ t.acc ≠ (at_ cfg4 5 3).acc :=
  ⟨⟨_, rfl, by decide⟩, ⟨_, rfl, by decide⟩, ⟨_, rfl, by decide⟩, ⟨_, rfl, by decide⟩⟩

theorem witness_ErrorsLeaveTheState :
    (∃ t, exec (.rsvd3 0xA7) (at_ cfg4 5 3) = .next t ∧ ∃ r ∈ t.resp.getLast?, r.status ≠ .ok) ∧
    ∃ t, exec (.merge 0x5A) (at_ cfg4 5 3) = .next t ∧ ∃ r ∈ t.resp.getLast?, r.status ≠ .ok :=
  ⟨⟨_, rfl, ⟨.illegalCommand, 0xA7⟩, by decide, by decide⟩, ⟨_, rfl, ⟨.unassignedSymbol, 0x5A⟩, by decide, by decide⟩⟩

theorem witness_PowerOnMeetsInv : cfg4.wf = true := by decide

theorem inv_mid_session : Inv { at_ cfg4 5 3 with inputs := [.command 0x047], out := [0xD], resp := [⟨.ok, 0⟩] } :=
  ⟨by decide, by decide, by decide, by decide⟩

theorem witness_StepKeepsInv :
    Inv { at_ cfg4 5 3 with inputs := [.command 0x047], out := [0xD], resp := [⟨.ok, 0⟩] } ∧
    ∃ t, step { at_ cfg4 5 3 with inputs := [.command 0x047], out := [0xD], resp := [⟨.ok, 0⟩] } = .next t :=
  ⟨inv_mid_session, _, rfl⟩

theorem witness_PackerNeverStops :
    Inv { at_ cfg4 5 3 with inputs := [.command 0x047], out := [0xD], resp := [⟨.ok, 0⟩] } := inv_mid_session

/-- A table with every entry as in `cfg4` but for don't-care bits of B. -/
def cfg4Unclean : Config := cfgOf p4 [(0x41, 1, [0x1]), (0x42, 2, [0xE, 0xF]), (0x47, 8, [0x5, 0xA])]

theorem witness_DontCareBitsInvisible : cfg4Unclean.params = (at_ cfg4 5 3).cfg.params ∧
    (∀ sym : Symbol, (tblRead cfg4Unclean sym).length = (tblRead cfg4 sym).length ∧
      ∀ k < (tblRead cfg4 sym).length,
        cwbit cfg4Unclean.params (tblRead cfg4Unclean sym) k = cwbit cfg4.params (tblRead cfg4 sym) k) ∧
    cfg4Unclean ≠ cfg4 := by
  refine ⟨by decide, fun sym => ?_, by decide⟩
  by_cases ha : sym = 0x41
  · subst ha; decide
  by_cases hb : sym = 0x42
  · subst hb; decide
  by_cases hg : sym = 0x47
  · subst hg; decide
  have hne : ∀ n : Nat, n < 256 → sym ≠ BitVec.ofNat 8 n → ¬ n = sym.toNat := by
    intro n hn h h'
    exact h (BitVec.eq_of_toNat_eq (by rw [BitVec.toNat_ofNat, Nat.mod_eq_of_lt hn, h']))
  have h4 : tblRead cfg4 sym = RawEntry.sentinel p4 := by
    show Table.read p4 [(0x41, ⟨1, [1, 0]⟩), (0x42, ⟨2, [2, 0]⟩), (0x47, ⟨8, [5, 10]⟩)] sym.toNat = _
    simp [Table.read, hne _ (by decide) ha, hne _ (by decide) hb, hne _ (by decide) hg]
  have hu : tblRead cfg4Unclean sym = RawEntry.sentinel p4 := by
    show Table.read p4 [(0x41, ⟨1, [1, 0]⟩), (0x42, ⟨2, [14, 15]⟩), (0x47, ⟨8, [5, 10]⟩)] sym.toNat = _
    simp [Table.read, hne _ (by decide) ha, hne _ (by decide) hb, hne _ (by decide) hg]
  rw [h4, hu]
  exact ⟨rfl, fun k hk => absurd hk (Nat.not_lt_zero k)⟩

/-- The commands of the session witnesses: a merge that leaves bits pending, a rejected merge, a reserved command, a merge
that crosses a word boundary. -/
def sessionCommands : List Instr := [.merge 0x42, .merge 0x5A, .rsvd3 0xA7, .merge 0x47]

/-- The same, flushed. -/
def flushedCommands : List Instr := sessionCommands ++ [Instr.flush 0]

/-- Two parts split off a word boundary by a `FLUSH`, and flushed. -/
def splitCommands : List Instr := [Instr.merge 0x42] ++ [Instr.flush 0] ++ [Instr.merge 0x47] ++ [Instr.flush 0]

/-- The session's commands, then a reset. -/
def resetInputs : List Input := commands sessionCommands ++ Input.reset :: []

/-- The session's commands, then an `INIT`. -/
def initInputs : List Input := commands sessionCommands ++ Input.command (encode (.init 0)) :: []

/-- `cfg4` at power-on with inputs presented. -/
def presented (xs : List Input) : State := withInputs cfg4 xs

theorem witness_MidSessionState : TableWellFormed cfg4 ∧ CleanEntry (presented (commands sessionCommands)) ∧
    (∀ i ∈ sessionCommands, staysInSession i = true) ∧
    (presented (commands sessionCommands)).inputs = commands sessionCommands ++ ([] : List Input) :=
  ⟨tableWellFormed_cfg4, rfl, by decide, by decide⟩

theorem witness_StreamContract : TableWellFormed cfg4 ∧ CleanEntry (presented (commands flushedCommands)) ∧
    (∀ i ∈ sessionCommands, staysInSession i = true) ∧
    (presented (commands flushedCommands)).inputs = commands flushedCommands ++ ([] : List Input) :=
  ⟨tableWellFormed_cfg4, rfl, by decide, by decide⟩

theorem witness_StreamBitsAreCodewordBits : TableWellFormed cfg4 ∧
    CleanEntry (presented (commands flushedCommands)) ∧ (∀ i ∈ sessionCommands, staysInSession i = true) ∧
    (presented (commands flushedCommands)).inputs = commands flushedCommands ++ ([] : List Input) :=
  witness_StreamContract

/-- Pending bits at the flush (the hypotheses are those of `witness_StreamContract`), and an empty session. -/
theorem witness_BitCountConserved : 0 < sessionLength cfg4 (acceptedSymbols cfg4 sessionCommands) % p4.W ∧
    sessionLength cfg4 (acceptedSymbols cfg4 []) = 0 := by decide

theorem witness_RejectedCommandsTransparent : TableWellFormed cfg4 ∧
    (sessionCommands.filter fun i => !isRejected cfg4 i) = [.merge 0x42, .merge 0x47] :=
  ⟨tableWellFormed_cfg4, by decide⟩

/-- A split off a word boundary, and a second part that ends on one. -/
theorem witness_MidFlushSplitsSession : TableWellFormed cfg4 ∧ CleanEntry (presented (commands splitCommands)) ∧
    (staysInSession (.merge 0x42) = true ∧ staysInSession (.merge 0x47) = true) ∧
    (presented (commands splitCommands)).inputs = commands splitCommands ++ ([] : List Input) ∧
    sessionLength cfg4 (acceptedSymbols cfg4 [.merge 0x42]) % p4.W = 2 ∧
    sessionLength cfg4 (acceptedSymbols cfg4 [.merge 0x47]) % p4.W = 0 :=
  ⟨tableWellFormed_cfg4, rfl, by decide, by decide, by decide, by decide⟩

/-- Abandoned by reset, and by `INIT`. -/
theorem witness_AbandonedSession : TableWellFormed cfg4 ∧
    (presented resetInputs).inputs = resetInputs ∧ (presented initInputs).inputs = initInputs ∧
    CleanEntry (presented resetInputs) ∧ CleanEntry (presented initInputs) ∧
    (∀ i ∈ sessionCommands, staysInSession i = true) :=
  ⟨tableWellFormed_cfg4, by decide, by decide, rfl, rfl, by decide⟩

theorem witness_ChunkingInvariance : (at_ cfg4 5 3).inputs = [] := by decide

theorem prefixFree_cfgAB : PrefixFree cfgAB := by
  have h : ∀ a : Symbol, isUnassigned (tblRead cfgAB a) = false → a = 0x41 ∨ a = 0x42 := by
    intro a ha
    by_contra hcon
    rw [not_or] at hcon
    have hne : ∀ n : Nat, n < 256 → a ≠ BitVec.ofNat 8 n → ¬ n = a.toNat := by
      intro n hn h h'
      exact h (BitVec.eq_of_toNat_eq (by rw [BitVec.toNat_ofNat, Nat.mod_eq_of_lt hn, h']))
    have h2 : tblRead cfgAB a = RawEntry.sentinel p4 := by
      show Table.read p4 [(0x41, ⟨1, [1, 0]⟩), (0x42, ⟨2, [2, 0]⟩)] a.toNat = _
      simp [Table.read, hne _ (by decide) hcon.1, hne _ (by decide) hcon.2]
    rw [h2] at ha
    exact absurd ha (by decide)
  intro a b ha hb hp
  rcases h a ha with rfl | rfl <;> rcases h b hb with rfl | rfl
  · rfl
  · exact absurd hp (by decide)
  · exact absurd hp (by decide)
  · rfl

/-- The merges `B A B`, flushed. -/
def prefixCommands : List Instr := [0x42, 0x41, 0x42].map Instr.merge ++ [Instr.flush 0]

/-- They are presented to a packer whose table is the prefix code. -/
def prefixState : State := withInputs cfgAB (commands prefixCommands)

theorem witness_RoundTripOverPrefixCode : TableWellFormed cfgAB ∧ PrefixFree cfgAB ∧ CleanEntry prefixState ∧
    (∀ sym ∈ [(0x42 : Symbol), 0x41], 0 < (tblRead cfgAB sym).length) ∧
    prefixState.inputs = commands prefixCommands ++ ([] : List Input) :=
  ⟨tableWellFormed_cfgAB, prefixFree_cfgAB, rfl, by decide, by decide⟩

theorem witness_InstancesIndependent :
    (∃ ts, runSchedule [0, 1, 0] [withInputs cfg4 [.command 0x041, .command 0x100], withInputs cfg4 [.command 0x047]] =
      .next ts) ∧
    ∀ s ∈ Instances.powerOn cfg4 2, Inv s := by
  refine ⟨⟨_, rfl⟩, fun s hs => ?_⟩
  rw [List.eq_of_mem_replicate hs]
  exact ⟨by decide, by decide, by decide, by decide⟩

end Sys2Proof.Tests
end

section
/-! The state family (10_state.md): what one step does by its next input, who writes the accumulator, and that the
histories are never read. -/

namespace Sys2Proof.Machine

/-! ### One step, by the next input -/

/-- With nothing presented the packer waits (log entry 6). -/
theorem step_of_inputs_nil {s : State} (h : s.inputs = []) : step s = .next s := by
  simp [step, takeInput, h]

theorem step_of_reset {s : State} {rest : List Input} (h : s.inputs = .reset :: rest) :
    step s = .next (clearAcc { s with inputs := rest }) := by
  simp [step, takeInput, h]

theorem step_of_command {s : State} {w : CommandWord} {rest : List Input} (h : s.inputs = .command w :: rest) :
    step s = exec (decode w) { s with inputs := rest } := by
  simp [step, takeInput, h]

/-! ### The ways to the initial state of the accumulator -/

/-- `INIT` always answers, with the accumulator in its initial state. -/
theorem exec_init_acc (sym : Symbol) (s : State) :
    ∃ t, exec (.init sym) s = .next t ∧ t.acc = Accumulator.initial :=
  ⟨respond .ok 0 (clearAcc s), rfl, by simp⟩

/-- `FLUSH` always answers, with the accumulator in its initial state, whether or not a word was pending. -/
theorem exec_flush_acc (sym : Symbol) (s : State) :
    ∃ t, exec (.flush sym) s = .next t ∧ t.acc = Accumulator.initial :=
  ⟨respond .ok 0 (clearAcc (if nothingPending s.acc then s else emit s.acc.buffer s)), rfl, by simp⟩

/-- Settles O29: `clearAcc` is the last write to the accumulator in a reset, an `INIT` and a `FLUSH`. -/
theorem waysToTheInitialState : Obligations.WaysToTheInitialState :=
  ⟨powerOn_acc _, powerOn_acc,
    fun _ _ hin => ⟨_, step_of_reset hin, clearAcc_acc _⟩,
    fun s sym => ⟨exec_init_acc sym s, exec_flush_acc sym s⟩⟩

/-! ### The writers of the accumulator -/

/-- The commands that may write the accumulator over a table: a `MERGE` of an assigned symbol, `FLUSH` and `INIT`
(10_state.md R21). -/
def WritesAcc (cfg : Config) (i : Instr) : Prop :=
  (∃ sym, i = .merge sym ∧ 0 < (tblRead cfg sym).length) ∨ (∃ sym, i = .flush sym) ∨ ∃ sym, i = .init sym

/-- A command that changed the accumulator is one of its writers. -/
theorem writesAcc_of_exec_acc_ne {i : Instr} {s t : State} (h : exec i s = .next t) (hne : t.acc ≠ s.acc) :
    WritesAcc s.cfg i := by
  rcases exec_cases h with ⟨sym, -, -, rfl⟩ | ⟨sym, hi, hlen, -⟩ | ⟨sym, hi, -⟩ | ⟨sym, hi, -⟩ |
    ⟨sym, hi, -⟩ | ⟨sym, -, rfl⟩
  · exact absurd (respond_acc ..) hne
  · exact .inl ⟨sym, hi, hlen⟩
  · exact .inr (.inl ⟨sym, hi⟩)
  · exact .inr (.inl ⟨sym, hi⟩)
  · exact .inr (.inr ⟨sym, hi⟩)
  · exact absurd (respond_acc ..) hne

/-- Settles O36: a pause leaves the whole state, a reset is one of the four writers, and a command that changes the
accumulator is one of the other three. -/
theorem accumulatorWriters : Obligations.AccumulatorWriters := by
  intro s t h hne
  rcases step_cases h with ⟨-, rfl⟩ | ⟨rest, hin, -⟩ | ⟨w, rest, hin, hexec⟩
  · exact absurd rfl hne
  · exact .inl ⟨rest, hin⟩
  · exact .inr ⟨w, rest, hin, writesAcc_of_exec_acc_ne (s := { s with inputs := rest }) hexec hne⟩

/-! ### The histories are never read

Every operation commutes with `prependHistories`: it reads the configuration, the accumulator and the inputs, and
only appends to the histories. -/

/-- The state with further words and responses before those its histories hold. -/
def prependHistories (ws : List Word) (rs : List Response) (s : State) : State :=
  { s with out := ws ++ s.out, resp := rs ++ s.resp }

section
variable (ws : List Word) (rs : List Response) (s : State)

@[simp] theorem prependHistories_cfg : (prependHistories ws rs s).cfg = s.cfg := rfl
@[simp] theorem prependHistories_acc : (prependHistories ws rs s).acc = s.acc := rfl
@[simp] theorem prependHistories_out : (prependHistories ws rs s).out = ws ++ s.out := rfl
@[simp] theorem prependHistories_resp : (prependHistories ws rs s).resp = rs ++ s.resp := rfl
@[simp] theorem prependHistories_inputs : (prependHistories ws rs s).inputs = s.inputs := rfl

@[simp] theorem emit_prependHistories (v : Word) :
    emit v (prependHistories ws rs s) = prependHistories ws rs (emit v s) :=
  State.ext_fields rfl rfl (List.append_assoc ..) rfl rfl

@[simp] theorem respond_prependHistories (st : Status) (info : BitVec 8) :
    respond st info (prependHistories ws rs s) = prependHistories ws rs (respond st info s) :=
  State.ext_fields rfl rfl rfl (List.append_assoc ..) rfl

@[simp] theorem clearAcc_prependHistories :
    clearAcc (prependHistories ws rs s) = prependHistories ws rs (clearAcc s) := rfl

@[simp] theorem mergeCodeword_prependHistories (len : Nat) (m : List Word) :
    mergeCodeword len m (prependHistories ws rs s) = prependHistories ws rs (mergeCodeword len m s) :=
  State.ext_fields rfl rfl (List.append_assoc ..) rfl rfl

theorem exec_prependHistories (i : Instr) :
    exec i (prependHistories ws rs s) = andThen (exec i s) fun t => .next (prependHistories ws rs t) := by
  cases i with
  | merge sym =>
    show execMerge sym _ = andThen (execMerge sym s) _
    rw [execMerge, execMerge, prependHistories_cfg]
    cases lookup s.cfg sym with
    | unassigned => simp
    | tooLong => rfl
    | assigned len m => simp
  | flush sym =>
    show execFlush sym _ = andThen (execFlush sym s) _
    by_cases hp : nothingPending s.acc = true
    · simp [execFlush, hp]
    · simp [execFlush, hp]
  | init sym =>
    show execInit sym _ = andThen (execInit sym s) _
    simp [execInit]
  | rsvd3 sym =>
    show execRsvd3 sym _ = andThen (execRsvd3 sym s) _
    simp [execRsvd3]

theorem step_prependHistories :
    step (prependHistories ws rs s) = andThen (step s) fun t => .next (prependHistories ws rs t) := by
  cases hin : s.inputs with
  | nil => rw [step_of_inputs_nil hin, step_of_inputs_nil (s := prependHistories ws rs s) hin, andThen_next]
  | cons x rest =>
    cases x with
    | reset =>
      rw [step_of_reset hin, step_of_reset (s := prependHistories ws rs s) hin, andThen_next]
      rfl
    | command w =>
      rw [step_of_command hin, step_of_command (s := prependHistories ws rs s) hin]
      exact exec_prependHistories ws rs { s with inputs := rest } (decode w)

end

/-- Settles O41: power-on leaves both histories empty, and every step commutes with putting words and responses
before what the histories hold. -/
theorem historiesNeverRead : Obligations.HistoriesNeverRead :=
  ⟨fun cfg => ⟨powerOn_out cfg, powerOn_resp cfg⟩, fun s ws rs => step_prependHistories ws rs s⟩

end Sys2Proof.Machine
end

section
/-! The memory family (20_memory.md): no step writes the table or removes what was handed over, and the bits of a
completed session's words are its codewords end to end. -/

namespace Sys2Proof.Machine

/-! ### No step writes the table, every step only appends -/

theorem exec_cfg {i : Instr} {s t : State} (h : exec i s = .next t) : t.cfg = s.cfg := by
  rcases exec_cases h with ⟨-, -, -, rfl⟩ | ⟨-, -, -, -, rfl⟩ | ⟨-, -, -, rfl⟩ | ⟨-, -, -, rfl⟩ |
    ⟨-, -, rfl⟩ | ⟨-, -, rfl⟩ <;> rfl

theorem step_cfg {s t : State} (h : step s = .next t) : t.cfg = s.cfg := by
  rcases step_cases h with ⟨-, rfl⟩ | ⟨rest, -, rfl⟩ | ⟨w, rest, -, hexec⟩
  · rfl
  · rfl
  · exact exec_cfg (s := { s with inputs := rest }) hexec

/-- A step that answers does what it does with empty histories, after the words and responses handed over before. -/
theorem step_eq_prependHistories {s t : State} (h : step s = .next t) :
    ∃ t₀, t = prependHistories s.out s.resp t₀ := by
  have hs : s = prependHistories s.out s.resp { s with out := [], resp := [] } :=
    State.ext_fields rfl rfl (List.append_nil _).symm (List.append_nil _).symm rfl
  rw [hs, step_prependHistories] at h
  cases h₀ : step { s with out := [], resp := [] } with
  | next t₀ =>
    rw [h₀, andThen_next] at h
    exact ⟨t₀, (Host.Outcome.next.inj h).symm⟩
  | fault r => rw [h₀] at h; cases h
  | refused r => rw [h₀] at h; cases h

/-- Settles O34: no command writes the configuration, and a step that never reads the histories can only append to
them. -/
theorem everyStepOnlyAppends : Obligations.EveryStepOnlyAppends := by
  intro s t h
  obtain ⟨t₀, ht⟩ := step_eq_prependHistories h
  exact ⟨step_cfg h, ⟨t₀.out, by rw [ht, prependHistories_out]⟩, ⟨t₀.resp, by rw [ht, prependHistories_resp]⟩⟩

/-! ### The bits of numbers, in stream order

`wordBits n V` is used for every number `V` and every `n`: the bits of `V` below position `n`, bit 0 first. -/

@[simp] theorem wordBits_length (n V : Nat) : (wordBits n V).length = n := by simp [wordBits]

@[simp] theorem wordBits_zero_left (V : Nat) : wordBits 0 V = [] := rfl

@[simp] theorem wordBits_zero_right (n : Nat) : wordBits n 0 = List.replicate n false :=
  (List.map_congr_left fun i _ => Nat.zero_testBit i).trans (by simp)

theorem wordBits_congr {n V V' : Nat} (h : ∀ i < n, V.testBit i = V'.testBit i) : wordBits n V = wordBits n V' :=
  List.map_congr_left fun i hi => h i (List.mem_range.1 hi)

/-- The bits below `m + n` are those below `m` and then those of what lies above them. -/
theorem wordBits_add (m n V : Nat) : wordBits (m + n) V = wordBits m V ++ wordBits n (V / 2 ^ m) := by
  simp [wordBits, List.range_add, Function.comp_def, Nat.testBit_div_two_pow, Nat.add_comm]

/-- A number below `2^k` in a word of `k + n` bits: its bits, then zero bits (20_memory.md R40). -/
theorem wordBits_add_of_lt {k V : Nat} (h : V < 2 ^ k) (n : Nat) :
    wordBits (k + n) V = wordBits k V ++ List.replicate n false := by
  rw [wordBits_add, Nat.div_eq_of_lt h, wordBits_zero_right]

/-- Bits put above `off` pending ones come after them in the stream. -/
theorem wordBits_or_shiftLeft {off b : Nat} (hb : b < 2 ^ off) (n C : Nat) :
    wordBits (off + n) (b ||| C <<< off) = wordBits off b ++ wordBits n C := by
  have hlow : wordBits off (b ||| C <<< off) = wordBits off b :=
    wordBits_congr fun i hi => by simp [Nat.not_le.2 hi]
  have hhigh : (b ||| C <<< off) / 2 ^ off = C := by
    rw [← Nat.shiftRight_eq_div_pow, Nat.shiftRight_or_distrib, Nat.shiftLeft_shiftRight,
      Nat.shiftRight_eq_div_pow, Nat.div_eq_of_lt hb, Nat.zero_or]
  rw [wordBits_add, hlow, hhigh]

/-- The codeword's bit string holds the bits of its value. -/
theorem bitString_eq_wordBits (p : Params) (e : RawEntry) : bitString p e = wordBits e.length (cwval p e) :=
  List.map_congr_left fun k hk => by simp [cwval_testBit, List.mem_range.1 hk]

/-! ### The bits of output words (20_memory.md R40) -/

@[simp] theorem streamBits_nil (W : Nat) : streamBits W [] = [] := rfl

@[simp] theorem streamBits_cons (W v : Nat) (ws : List Word) :
    streamBits W (v :: ws) = wordBits W v ++ streamBits W ws := rfl

@[simp] theorem streamBits_append (W : Nat) (vs ws : List Word) :
    streamBits W (vs ++ ws) = streamBits W vs ++ streamBits W ws := List.flatMap_append

/-- The words cut off a number have its bits. -/
theorem streamBits_sliceWords {W : Nat} (hW : 1 ≤ W) (V n : Nat) :
    streamBits W (sliceWords W V n) = wordBits (n * W) V := by
  induction n with
  | zero => simp
  | succ n ih =>
    have hword : wordBits W (wordSlice W V n) = wordBits W (V / 2 ^ (n * W)) :=
      wordBits_congr fun i hi => by simp [wordSlice_testBit hW, Nat.testBit_div_two_pow, hi, Nat.add_comm]
    rw [sliceWords_succ, streamBits_append, ih, Nat.succ_mul, wordBits_add, ← hword]
    simp

/-- Bit `i` of word `j` is stream bit `j*W + i`. -/
theorem streamBits_getElem? {W i : Nat} (hi : i < W) (ws : List Word) {j : Nat} (hj : j < ws.length) :
    (streamBits W ws)[j * W + i]? = some ((ws.getD j 0).testBit i) := by
  induction ws generalizing j with
  | nil => exact absurd hj (Nat.not_lt_zero j)
  | cons v ws ih =>
    rw [streamBits_cons]
    cases j with
    | zero =>
      rw [Nat.zero_mul, Nat.zero_add, List.getElem?_append_left (by simpa using hi)]
      simp [wordBits, hi]
    | succ j =>
      have hpos : (j + 1) * W + i = W + (j * W + i) := by ring
      rw [hpos, List.getElem?_append_right (by simp), wordBits_length, Nat.add_sub_cancel_left,
        ih (Nat.lt_of_succ_lt_succ hj), List.getD_cons_succ]

/-! ### The bits a packer takes in -/

/-- The pending bits of the accumulator, first bit first. -/
def accBits (a : Accumulator) : List Bool := wordBits a.offset a.buffer

@[simp] theorem accBits_initial : accBits Accumulator.initial = [] := rfl

/-- From `s` to `t` the packer took in `bits`: the words it appended and the bits then pending are, in stream order,
the bits pending before followed by `bits`; and `t` meets the accumulator's invariant. -/
structure TakesIn (bits : List Bool) (s t : State) : Prop where
  cfg : t.cfg = s.cfg
  acc : AccInv t.cfg.params t.acc
  out : ∃ ws, t.out = s.out ++ ws ∧
    streamBits s.cfg.params.W ws ++ accBits t.acc = accBits s.acc ++ bits

/-- A state that differs in its responses and inputs only has taken in nothing. -/
theorem TakesIn.of_same {s t : State} (hcfg : t.cfg = s.cfg) (hacc : t.acc = s.acc) (hout : t.out = s.out)
    (hinv : AccInv s.cfg.params s.acc) : TakesIn [] s t :=
  ⟨hcfg, by rw [hcfg, hacc]; exact hinv, [], by simp [hout], by simp [hacc]⟩

theorem TakesIn.trans {a b : List Bool} {s t u : State} (hst : TakesIn a s t) (htu : TakesIn b t u) :
    TakesIn (a ++ b) s u := by
  obtain ⟨vs, hvs, hva⟩ := hst.out
  obtain ⟨ws, hws, hwb⟩ := htu.out
  rw [hst.cfg] at hwb
  refine ⟨htu.cfg.trans hst.cfg, htu.acc, vs ++ ws, by rw [hws, hvs, List.append_assoc], ?_⟩
  rw [streamBits_append, List.append_assoc, hwb, ← List.append_assoc, hva, List.append_assoc]

/-- An accepted merge takes in the bit string of its codeword (41_merge.md R89). -/
theorem mergeCodeword_takesIn {s : State} {e : RawEntry} (he : e.length ≤ s.cfg.params.MAX_BITS)
    (ha : AccInv s.cfg.params s.acc) :
    TakesIn (bitString s.cfg.params e) s (mergeCodeword e.length (mask s.cfg.params e) s) := by
  obtain ⟨hoff, hbuf⟩ := ha
  have hW := s.cfg.params.W_pos
  have hlt : s.acc.buffer ||| cwval s.cfg.params e <<< s.acc.offset < 2 ^ (s.acc.offset + e.length) := by
    refine Nat.or_lt_two_pow (hbuf.trans_le (Nat.pow_le_pow_right (by decide) (Nat.le_add_right _ _))) ?_
    rw [Nat.shiftLeft_eq, Nat.pow_add, Nat.mul_comm]
    exact Nat.mul_lt_mul_of_pos_left (cwval_lt _ e) (Nat.two_pow_pos _)
  have hlen := Nat.div_add_mod' (s.acc.offset + e.length) s.cfg.params.W
  rw [mergeCodeword_eq he ⟨hoff, hbuf.trans (Nat.pow_lt_pow_right (by decide) hoff)⟩]
  refine ⟨rfl, ⟨Nat.mod_lt _ hW, ?_⟩, _, rfl, ?_⟩
  · rw [Nat.div_lt_iff_lt_mul (Nat.two_pow_pos _), ← Nat.pow_add, Nat.add_comm, hlen]
    exact hlt
  · rw [streamBits_sliceWords hW, accBits, ← wordBits_add, hlen, wordBits_or_shiftLeft hbuf, accBits,
      bitString_eq_wordBits]

/-- A `FLUSH` emits the pending bits followed by `(W - offset) mod W` zero bits (42_flush_init.md R100). -/
theorem exec_flush_bits (sym : Symbol) {s : State} (ha : AccInv s.cfg.params s.acc) :
    ∃ t ws, exec (.flush sym) s = .next t ∧ t.out = s.out ++ ws ∧
      streamBits s.cfg.params.W ws =
        accBits s.acc ++ List.replicate ((s.cfg.params.W - s.acc.offset) % s.cfg.params.W) false := by
  obtain ⟨hoff, hbuf⟩ := ha
  refine ⟨respond .ok 0 (clearAcc (if nothingPending s.acc then s else emit s.acc.buffer s)), ?_⟩
  rcases Nat.eq_zero_or_pos s.acc.offset with h0 | hpos
  · exact ⟨[], rfl, by simp [nothingPending, h0], by simp [accBits, h0]⟩
  · have hpend : nothingPending s.acc = false := by simp [nothingPending, Nat.ne_of_gt hpos]
    have hword := wordBits_add_of_lt hbuf (s.cfg.params.W - s.acc.offset)
    rw [Nat.add_sub_cancel' hoff.le] at hword
    refine ⟨[s.acc.buffer], rfl, by simp [hpend], ?_⟩
    rw [Nat.mod_eq_of_lt (Nat.sub_lt s.cfg.params.W_pos hpos), accBits, ← hword]
    simp

/-! ### Sessions -/

/-- Decoding the command word of an instruction gives the instruction. -/
@[simp] theorem decode_encode (i : Instr) : decode (encode i) = i := by
  cases i <;> simp [decode, encode]

/-- The next step runs an instruction whose command word is presented next. -/
theorem step_of_encode {s : State} {i : Instr} {rest : List Input} (h : s.inputs = .command (encode i) :: rest) :
    step s = exec i { s with inputs := rest } := by
  rw [step_of_command h, decode_encode]

/-- The bits of a session are those of its first command and then those of the rest. -/
theorem sessionBits_acceptedSymbols_cons (cfg : Config) (i : Instr) (is : List Instr) :
    sessionBits cfg (acceptedSymbols cfg (i :: is)) =
      sessionBits cfg (acceptedSymbols cfg [i]) ++ sessionBits cfg (acceptedSymbols cfg is) := by
  rw [← List.singleton_append, acceptedSymbols, List.filterMap_append, sessionBits, List.flatMap_append]
  rfl

/-- A command inside a session takes in the bits of the symbol it adds, if it adds one. -/
theorem exec_takesIn {i : Instr} {s : State} (hstay : staysInSession i = true) (hwf : TableWellFormed s.cfg)
    (ha : AccInv s.cfg.params s.acc) :
    ∃ t, exec i s = .next t ∧ t.inputs = s.inputs ∧
      TakesIn (sessionBits s.cfg (acceptedSymbols s.cfg [i])) s t := by
  cases i with
  | merge sym =>
    rcases Nat.eq_zero_or_pos (tblRead s.cfg sym).length with h0 | hpos
    · refine ⟨_, execMerge_unassigned h0, respond_inputs .., ?_⟩
      have hnone : acceptedSymbols s.cfg [.merge sym] = [] := by
        simp [acceptedSymbols, acceptedSymbol?, isUnassigned, h0]
      rw [hnone]
      exact .of_same rfl rfl rfl ha
    · have hmerge := mergeCodeword_takesIn (hwf sym) ha
      refine ⟨_, execMerge_assigned hpos (hwf sym), rfl, ?_⟩
      have hsome : acceptedSymbols s.cfg [.merge sym] = [sym] := by
        simp [acceptedSymbols, acceptedSymbol?, isUnassigned, Nat.ne_of_gt hpos]
      rw [hsome, sessionBits, List.flatMap_singleton]
      exact ⟨hmerge.cfg, hmerge.acc, hmerge.out⟩
  | flush sym => cases hstay
  | init sym => cases hstay
  | rsvd3 sym => exact ⟨_, rfl, respond_inputs .., .of_same rfl rfl rfl ha⟩

/-- The step that runs such a command does the same. -/
theorem step_takesIn {i : Instr} {s : State} {rest : List Input} (hstay : staysInSession i = true)
    (hwf : TableWellFormed s.cfg) (ha : AccInv s.cfg.params s.acc) (hin : s.inputs = .command (encode i) :: rest) :
    ∃ t, step s = .next t ∧ t.inputs = rest ∧ TakesIn (sessionBits s.cfg (acceptedSymbols s.cfg [i])) s t := by
  obtain ⟨t, hexec, htin, ht⟩ := exec_takesIn (s := { s with inputs := rest }) hstay hwf ha
  exact ⟨t, (step_of_encode hin).trans hexec, htin, ht.cfg, ht.acc, ht.out⟩

/-- The commands of a session take in the bit strings of its accepted symbols end to end. -/
theorem run_takesIn (is : List Instr) (rest : List Input) {s : State} (hwf : TableWellFormed s.cfg)
    (ha : AccInv s.cfg.params s.acc) (hstay : ∀ i ∈ is, staysInSession i = true)
    (hin : s.inputs = commands is ++ rest) :
    ∃ t, run is.length s = .next t ∧ t.inputs = rest ∧
      TakesIn (sessionBits s.cfg (acceptedSymbols s.cfg is)) s t := by
  induction is generalizing s with
  | nil => exact ⟨s, rfl, hin, .of_same rfl rfl rfl ha⟩
  | cons i is ih =>
    obtain ⟨hi, his⟩ := List.forall_mem_cons.1 hstay
    obtain ⟨t, hstep, htin, hst⟩ := step_takesIn hi hwf ha hin
    obtain ⟨u, hrun, huin, htu⟩ := ih (hst.cfg ▸ hwf) hst.acc his htin
    rw [hst.cfg] at htu
    refine ⟨u, ?_, huin, sessionBits_acceptedSymbols_cons .. ▸ hst.trans htu⟩
    rw [List.length_cons, run_succ, hstep, andThen_next, hrun]

/-- Settles O45: the session's commands take in its bit strings from an empty accumulator, and its `FLUSH` emits what
is then pending, padded to a whole word. -/
theorem streamBitsAreCodewordBits : Obligations.StreamBitsAreCodewordBits := by
  intro s is x rest hwf hclean hstay hin
  have hinv : AccInv s.cfg.params s.acc := by rw [hclean]; exact ⟨s.cfg.params.W_pos, Nat.one_pos⟩
  have hin' : s.inputs = commands is ++ (.command (encode (.flush x)) :: rest) := by
    rw [hin]; simp [commands]
  obtain ⟨t, hrun, htin, ht⟩ := run_takesIn is _ hwf hinv hstay hin'
  obtain ⟨vs, hvs, hbits⟩ := ht.out
  obtain ⟨u, ws, hflush, hws, hpad⟩ := exec_flush_bits x (s := { t with inputs := rest }) ht.acc
  rw [hclean, accBits_initial, List.nil_append] at hbits
  refine ⟨u, vs ++ ws, (t.cfg.params.W - t.acc.offset) % t.cfg.params.W, ?_, ?_, ?_, ?_, ?_⟩
  · rw [run_add, hrun, andThen_next, run_succ, step_of_encode htin, hflush]
    rfl
  · rw [hws, ← List.append_assoc, ← hvs]
  · rw [← ht.cfg]
    exact Nat.mod_lt _ t.cfg.params.W_pos
  · rw [← ht.cfg] at hbits ⊢
    rw [streamBits_append, hpad, ← List.append_assoc, hbits]
    rfl
  · exact fun j i hj hi => streamBits_getElem? hi (vs ++ ws) hj

end Sys2Proof.Machine
end

section
/-! The encoding family (30_encoding.md): the opcode table and the fields of a command word, the response word, the
packed table row, and the bits and fields that no command sees. -/

namespace Sys2Proof.Machine

open Sys2Proof.Laws.TableRow (mask_append)
open Sys2Proof.Laws.WordFields (opOf symOf)

/-! ### Command words -/

/-- A two-bit number above a byte, as a number (30_encoding.md R57, R61). -/
theorem toNat_append_byte (k : BitVec 2) (b : BitVec 8) : (k ++ b).toNat = k.toNat * 256 + b.toNat := by
  rw [BitVec.toNat_append, ← Nat.shiftLeft_add_eq_or_of_lt b.isLt, Nat.shiftLeft_eq]

theorem encode_eq_append (i : Instr) : encode i = opOf i ++ symOf i := by
  cases i <;> rfl

theorem encode_decode (w : CommandWord) : encode (decode w) = w := by
  refine Eq.trans ?_ (fields_append w)
  rcases two_bits_cases (opField w) with h | h | h | h <;> simp [decode, encode, h]

theorem encode_div_256 (i : Instr) : (encode i).toNat / 256 = (opOf i).toNat := by
  rw [encode_eq_append, toNat_append_byte]
  have := (symOf i).isLt
  omega

theorem encode_mod_256 (i : Instr) : (encode i).toNat % 256 = (symOf i).toNat := by
  rw [encode_eq_append, toNat_append_byte]
  have := (symOf i).isLt
  omega

/-- Under the mask 0x300 a command word is its operation selector above a zero byte (30_encoding.md R60). -/
theorem encode_and_mask (i : Instr) : encode i &&& 0x300 = opOf i ++ (0 : BitVec 8) := by
  rw [encode_eq_append, mask_append]

/-- The operation selector is the position of the instruction's row in the opcode table (30_encoding.md R59). -/
theorem opcodeTable_getElem?_opOf (i : Instr) :
    opcodeTable[(opOf i).toNat]?.map OpcodeRow.mnemonic = some i.mnemonic := by
  cases i <;> rfl

theorem mnemonic_eq_of_opOf_toNat_eq {i j : Instr} (h : (opOf i).toNat = (opOf j).toNat) :
    i.mnemonic = j.mnemonic := by
  rw [← Option.some_inj, ← opcodeTable_getElem?_opOf, ← opcodeTable_getElem?_opOf, h]

/-- The one row of the opcode table that a command word matches is the row of its instruction. -/
theorem matching_rows_encode (i : Instr) :
    (opcodeTable.filter fun row => decide (encode i &&& row.mask = row.pattern)).map OpcodeRow.mnemonic =
      [i.mnemonic] := by
  simp only [opcodeTable, List.filter, encode_and_mask]
  cases i <;> simp [opOf, Instr.mnemonic]

/-- Settles O2: a command word is the word of the instruction it decodes to, and that word is the instruction's
operation selector above its symbol. -/
theorem decodeByOpField : Obligations.DecodeByOpField := by
  intro w
  obtain ⟨i, rfl⟩ : ∃ i, w = encode i := ⟨decode w, (encode_decode w).symm⟩
  have hsym : BitVec.ofNat 8 ((encode i).toNat % 256) = symOf i := by
    rw [encode_mod_256, BitVec.ofNat_toNat, BitVec.setWidth_eq]
  rw [hsym, decode_encode, encode_and_mask]
  have hmnemonic : ∀ w' : CommandWord, w'.toNat / 256 = (encode i).toNat / 256 →
      (decode w').mnemonic = i.mnemonic := by
    intro w' h
    rw [← encode_decode w', encode_div_256, encode_div_256] at h
    exact mnemonic_eq_of_opOf_toNat_eq h
  refine ⟨matching_rows_encode i, ?_, ?_, ?_, ?_, hmnemonic⟩ <;> cases i <;> simp [opOf, symOf]

/-- Settles O27: `execFlush` and `execInit` do not use their symbol, and `execRsvd3` only responds with it. -/
theorem ignoredSymbolField : Obligations.IgnoredSymbolField :=
  ⟨fun _ _ _ => ⟨rfl, rfl⟩,
    fun s a => ⟨respond .illegalCommand a s, rfl, rfl, respond_resp ..⟩, rfl, rfl⟩

/-! ### Response words -/

theorem response_word_toNat (r : Response) : r.word.toNat = r.status.code.toNat * 256 + r.info.toNat :=
  toNat_append_byte ..

@[simp] theorem response_ofWord_word (r : Response) : Response.ofWord r.word = r := by
  simp [Response.ofWord, Response.word, extract_high_append, extract_low_append]

/-- Every command that answers appends exactly its response of 42_flush_init.md R107. -/
theorem exec_resp {i : Instr} {s t : State} (h : exec i s = .next t) : t.resp = s.resp ++ [responseOf s.cfg i] := by
  rcases exec_cases h with ⟨sym, rfl, h0, rfl⟩ | ⟨sym, rfl, hpos, -, rfl⟩ | ⟨sym, rfl, -, rfl⟩ |
    ⟨sym, rfl, -, rfl⟩ | ⟨sym, rfl, rfl⟩ | ⟨sym, rfl, rfl⟩
  · simp [responseOf, isUnassigned, h0]
  · simp [responseOf, isUnassigned, Nat.ne_of_gt hpos, (mergeCodeword_frame ..).2.1]
  all_goals rfl

theorem responseOf_legal (cfg : Config) (i : Instr) : (responseOf cfg i).legal := by
  cases i with
  | merge sym =>
    rw [responseOf]
    split <;> simp [Response.legal]
  | _ => simp [responseOf, Response.legal]

theorem eq_merge_of_responseOf {cfg : Config} {i : Instr} (h : (responseOf cfg i).status = .unassignedSymbol) :
    i = .merge (responseOf cfg i).info := by
  cases i with
  | merge sym =>
    by_cases h0 : isUnassigned (tblRead cfg sym) = true
    · simp [responseOf, h0]
    · simp [responseOf, h0] at h
  | _ => cases h

theorem eq_rsvd3_of_responseOf {cfg : Config} {i : Instr} (h : (responseOf cfg i).status = .illegalCommand) :
    i = .rsvd3 (responseOf cfg i).info := by
  cases i with
  | merge sym =>
    rw [responseOf] at h
    split at h <;> cases h
  | rsvd3 sym => rfl
  | _ => cases h

/-- Settles O6: the response word is the status number above `info`, and a command that runs appends the one
response `responseOf` gives it. -/
theorem responsePortFormat : Obligations.ResponsePortFormat := by
  refine ⟨fun r => ⟨response_word_toNat r, response_ofWord_word r⟩, rfl, rfl, rfl, rfl, ?_⟩
  intro s t w rest hin hstep
  rw [step_of_command hin] at hstep
  obtain ⟨hstatus, hok⟩ := responseOf_legal s.cfg (decode w)
  have hresp := exec_resp (s := { s with inputs := rest }) hstep
  refine ⟨responseOf s.cfg (decode w), hresp, hstatus, hok, eq_merge_of_responseOf, fun hill => ?_⟩
  have hw := encode_mod_256 (decode w)
  rw [encode_decode, eq_rsvd3_of_responseOf hill] at hw
  exact hw.symm

/-! ### The packed table row (30_encoding.md R56, R64) -/

/-- The content words of an entry as one number, word 0 lowest. -/
def contentValue (W : Nat) (ws : List Word) : Nat := ws.foldr (fun v rest => v + 2 ^ W * rest) 0

theorem packRow_eq (p : Params) (e : RawEntry) :
    packRow p e = e.length + 2 ^ p.LEN_BITS * contentValue p.W e.content := rfl

theorem contentValue_cons (W v : Nat) (ws : List Word) :
    contentValue W (v :: ws) = v + 2 ^ W * contentValue W ws := rfl

theorem contentValue_lt {W : Nat} {ws : List Word} (h : ∀ v ∈ ws, v < 2 ^ W) :
    contentValue W ws < 2 ^ (ws.length * W) := by
  induction ws with
  | nil => exact Nat.two_pow_pos _
  | cons v ws ih =>
    obtain ⟨hv, hws⟩ := List.forall_mem_cons.1 h
    have hpow : 2 ^ ((v :: ws).length * W) = 2 ^ W * 2 ^ (ws.length * W) := by
      rw [List.length_cons, Nat.succ_mul, Nat.add_comm, Nat.pow_add]
    calc contentValue W (v :: ws)
        < 2 ^ W + 2 ^ W * contentValue W ws := Nat.add_lt_add_right hv _
      _ = 2 ^ W * (contentValue W ws + 1) := by rw [Nat.mul_succ, Nat.add_comm]
      _ ≤ 2 ^ ((v :: ws).length * W) := hpow ▸ Nat.mul_le_mul_left _ (ih hws)

/-- The words of the number made of content words are those words. -/
theorem sliceWords_contentValue {W : Nat} (hW : 1 ≤ W) {ws : List Word} (h : ∀ v ∈ ws, v < 2 ^ W) :
    sliceWords W (contentValue W ws) ws.length = ws := by
  induction ws with
  | nil => rfl
  | cons v ws ih =>
    obtain ⟨hv, hws⟩ := List.forall_mem_cons.1 h
    have hhead : wordSlice W (contentValue W (v :: ws)) 0 = v := by
      simp [wordSlice_eq hW, contentValue_cons, Nat.mod_eq_of_lt hv]
    have htail : contentValue W (v :: ws) / 2 ^ W = contentValue W ws := by
      rw [contentValue_cons, Nat.add_mul_div_left _ _ (Nat.two_pow_pos W), Nat.div_eq_of_lt hv, Nat.zero_add]
    rw [List.length_cons, sliceWords_cons hW, hhead, htail, ih hws]

/-- A row unpacks to its low `LEN_BITS` bits and the words above them. -/
theorem unpackRow_eq (p : Params) (r : Nat) :
    unpackRow p r = ⟨r % 2 ^ p.LEN_BITS, sliceWords p.W (r / 2 ^ p.LEN_BITS) p.NW⟩ := by
  have hword : ∀ j, slice r (p.LEN_BITS + j * p.W + p.W - 1) (p.LEN_BITS + j * p.W) =
      wordSlice p.W (r / 2 ^ p.LEN_BITS) j := by
    intro j
    have hwidth : p.LEN_BITS + j * p.W + p.W - 1 - (p.LEN_BITS + j * p.W) + 1 = p.W := by
      have := p.W_pos
      omega
    rw [slice, hwidth, wordSlice_eq p.W_pos, Nat.div_div_eq_div_mul, ← Nat.pow_add]
  rw [unpackRow, sliceWords, funext hword]

/-- `LEN_BITS` bits hold every length of format CW (00_scope.md R8). -/
theorem lt_two_pow_LEN_BITS {p : Params} {n : Nat} (h : n ≤ p.MAX_BITS) : n < 2 ^ p.LEN_BITS := by
  have hpos := p.MAX_BITS_pos
  have hbits : p.LEN_BITS = p.MAX_BITS.log2 + 1 := by
    rw [Params.LEN_BITS, ceilLog2, if_neg (by omega), Nat.add_sub_cancel]
  exact hbits ▸ h.trans_lt Nat.lt_log2_self

theorem packRow_mod {p : Params} {e : RawEntry} (h : e.length ≤ p.MAX_BITS) :
    packRow p e % 2 ^ p.LEN_BITS = e.length := by
  rw [packRow_eq, Nat.add_mul_mod_self_left, Nat.mod_eq_of_lt (lt_two_pow_LEN_BITS h)]

theorem packRow_div {p : Params} {e : RawEntry} (h : e.length ≤ p.MAX_BITS) :
    packRow p e / 2 ^ p.LEN_BITS = contentValue p.W e.content := by
  rw [packRow_eq, Nat.add_mul_div_left _ _ (Nat.two_pow_pos _), Nat.div_eq_of_lt (lt_two_pow_LEN_BITS h),
    Nat.zero_add]

theorem typed_iff {p : Params} {e : RawEntry} :
    e.typed p = true ↔ e.content.length = p.NW ∧ ∀ v ∈ e.content, v < 2 ^ p.W := by
  simp [RawEntry.typed]

/-- Bit `k` of the number made of an entry's content words is codeword bit `k`. -/
theorem contentValue_testBit {p : Params} {e : RawEntry} (he : e.typed p = true) {k : Nat} (hk : k < p.NW * p.W) :
    (contentValue p.W e.content).testBit k = cwbit p e k := by
  obtain ⟨hlen, hlt⟩ := typed_iff.1 he
  have hj : k / p.W < p.NW := (Nat.div_lt_iff_lt_mul p.W_pos).2 hk
  have hword : e.content.getD (k / p.W) 0 = wordSlice p.W (contentValue p.W e.content) (k / p.W) := by
    conv_lhs => rw [← sliceWords_contentValue p.W_pos hlt, hlen]
    simp [sliceWords, hj]
  rw [cwbit, hword, wordSlice_testBit p.W_pos, Nat.div_add_mod']
  simp [Nat.mod_lt k p.W_pos]

/-- Settles O7: below `LEN_BITS` a row is the length, above it the number made of the content words. -/
theorem packedRowRoundTrip : Obligations.PackedRowRoundTrip := by
  refine fun p => ⟨fun r j hj => ?_, fun e he hmax => ?_⟩
  · rw [unpackRow_eq]
    refine ⟨rfl, ?_⟩
    simp [sliceWords, hj, wordSlice_eq p.W_pos, Nat.div_div_eq_div_mul, ← Nat.pow_add]
  · obtain ⟨hlen, hlt⟩ := typed_iff.1 he
    refine ⟨?_, fun k hk => ?_, ?_⟩
    · rw [Nat.add_comm, Nat.pow_add, ← Nat.div_lt_iff_lt_mul (Nat.two_pow_pos _), packRow_div hmax, ← hlen]
      exact contentValue_lt hlt
    · rw [Nat.add_comm, ← Nat.testBit_div_two_pow, packRow_div hmax, contentValue_testBit he hk]
    · rw [unpackRow_eq, packRow_mod hmax, packRow_div hmax, ← hlen, sliceWords_contentValue p.W_pos hlt]

/-! ### Don't-care bits (30_encoding.md R54)

A command reads the table through `lookup` alone, and `lookup` sees of an entry its length and its value. -/

theorem cwval_congr {p : Params} {d e : RawEntry} (hlen : d.length = e.length)
    (hbits : ∀ k < e.length, cwbit p d k = cwbit p e k) : cwval p d = cwval p e := by
  rw [cwval, cwval, bitString, bitString, hlen]
  exact congrArg bitsValue (List.map_congr_left fun k hk => hbits k (List.mem_range.1 hk))

theorem mask_congr {p : Params} {d e : RawEntry} (h : cwval p d = cwval p e) : mask p d = mask p e :=
  List.map_congr_left fun j _ => by rw [maskWord_eq, maskWord_eq, h]

theorem lookup_congr {c d : Config} {sym : Symbol} (hp : d.params = c.params)
    (hlen : (tblRead d sym).length = (tblRead c sym).length)
    (hbits : ∀ k < (tblRead c sym).length, cwbit d.params (tblRead d sym) k = cwbit c.params (tblRead c sym) k) :
    lookup d sym = lookup c sym := by
  rw [hp] at hbits
  have hmask := mask_congr (cwval_congr hlen hbits)
  rw [lookup, lookup, isUnassigned, isUnassigned, isTooLong, isTooLong, hlen, hp, hmask]

/-- The state with another table. -/
def withTable (tbl : Table) (s : State) : State := { s with cfg := { s.cfg with table := tbl } }

section
variable (tbl : Table) (s : State)

@[simp] theorem withTable_acc : (withTable tbl s).acc = s.acc := rfl
@[simp] theorem withTable_cfg : (withTable tbl s).cfg = ⟨s.cfg.params, tbl⟩ := rfl

@[simp] theorem emit_withTable (v : Word) : emit v (withTable tbl s) = withTable tbl (emit v s) := rfl

@[simp] theorem respond_withTable (st : Status) (info : BitVec 8) :
    respond st info (withTable tbl s) = withTable tbl (respond st info s) := rfl

@[simp] theorem clearAcc_withTable : clearAcc (withTable tbl s) = withTable tbl (clearAcc s) := rfl

@[simp] theorem mergeCodeword_withTable (len : Nat) (m : List Word) :
    mergeCodeword len m (withTable tbl s) = withTable tbl (mergeCodeword len m s) := rfl

/-- Over a table with the same lookups every command does the same. -/
theorem exec_withTable (i : Instr) (hl : ∀ sym, lookup ⟨s.cfg.params, tbl⟩ sym = lookup s.cfg sym) :
    exec i (withTable tbl s) = andThen (exec i s) fun t => .next (withTable tbl t) := by
  cases i with
  | merge sym =>
    show execMerge sym _ = andThen (execMerge sym s) _
    rw [execMerge, execMerge, withTable_cfg, hl]
    cases lookup s.cfg sym with
    | unassigned => simp
    | tooLong => rfl
    | assigned len m => simp
  | flush sym =>
    show execFlush sym _ = andThen (execFlush sym s) _
    by_cases hp : nothingPending s.acc = true
    · simp [execFlush, hp]
    · simp [execFlush, hp]
  | init sym => rfl
  | rsvd3 sym => rfl

end

/-- Settles O42: tables that differ in don't-care bits only have the same lookups. -/
theorem dontCareBitsInvisible : Obligations.DontCareBitsInvisible := by
  intro s i cfg hp hagree s'
  have hcfg : ⟨s.cfg.params, cfg.table⟩ = cfg := by rw [← hp]
  have hs' : s' = withTable cfg.table s := State.ext_fields hcfg.symm rfl rfl rfl rfl
  have hl : ∀ sym, lookup ⟨s.cfg.params, cfg.table⟩ sym = lookup s.cfg sym := by
    rw [hcfg]
    exact fun sym => lookup_congr hp (hagree sym).1 (hagree sym).2
  rw [hs', exec_withTable cfg.table s i hl]
  refine ⟨fun t ht => ?_, fun f hf => by rw [hf]; rfl, fun r hr => by rw [hr]; rfl⟩
  have htcfg := exec_cfg ht
  refine ⟨by rw [hp, ← htcfg]; exact t.offset_lt, ?_⟩
  rw [ht, andThen_next]
  exact congrArg _ (State.ext_fields ((htcfg ▸ withTable_cfg cfg.table t).trans hcfg) rfl rfl rfl rfl)

end Sys2Proof.Machine
end

section
/-! The lookup family (40_lookup.md): which symbols are assigned, the masked codeword bit by bit, word by word and as a
number, and the content word past the end. -/

namespace Sys2Proof.Machine

/-! ### Unassigned symbols (40_lookup.md R75) -/

theorem lookup_eq_unassigned_iff (cfg : Config) (sym : Symbol) :
    lookup cfg sym = .unassigned ↔ (tblRead cfg sym).length = 0 := by
  rcases lookup_cases cfg sym with ⟨h0, hl⟩ | ⟨hlong, hl⟩ | ⟨hpos, -, hl⟩
  · simp [hl, h0]
  · simp [hl, Nat.ne_of_gt (Nat.zero_lt_of_lt hlong)]
  · simp [hl, Nat.ne_of_gt hpos]

theorem lookup_assigned {cfg : Config} {sym : Symbol} (hpos : 0 < (tblRead cfg sym).length)
    (hmax : (tblRead cfg sym).length ≤ cfg.params.MAX_BITS) :
    lookup cfg sym = .assigned (tblRead cfg sym).length (mask cfg.params (tblRead cfg sym)) := by
  rcases lookup_cases cfg sym with ⟨h0, -⟩ | ⟨hlong, -⟩ | ⟨-, -, hl⟩
  · exact absurd h0 (Nat.ne_of_gt hpos)
  · exact absurd hmax (Nat.not_le.2 hlong)
  · exact hl

/-- Settles O10: of the three answers of the lookup stage only the one for length 0 is `unassigned`, and a merge then
does no more than respond. -/
theorem unassignedIsLengthZero : Obligations.UnassignedIsLengthZero := by
  refine fun cfg sym => ⟨lookup_eq_unassigned_iff cfg sym, fun hwf hpos => lookup_assigned hpos (hwf sym), ?_⟩
  rintro s rfl hl
  exact execMerge_unassigned ((lookup_eq_unassigned_iff s.cfg sym).1 hl)

/-! ### The masked codeword (40_lookup.md R76) -/

theorem mask_getD {p : Params} {j : Nat} (hj : j < p.NW) (e : RawEntry) : (mask p e).getD j 0 = maskWord p e j := by
  simp [mask, hj]

theorem content_getD_lt {p : Params} {e : RawEntry} (he : e.typed p = true) (j : Nat) :
    e.content.getD j 0 < 2 ^ p.W := by
  rcases Nat.lt_or_ge j e.content.length with hj | hj
  · rw [List.getD_eq_getElem _ _ hj]
    exact (typed_iff.1 he).2 _ (List.getElem_mem hj)
  · rw [List.getD_eq_default _ _ hj]
    exact Nat.two_pow_pos _

/-- A word whose bits all lie below `length` is not changed. -/
theorem maskWord_of_lt_div {p : Params} {e : RawEntry} (he : e.typed p = true) {j : Nat} (hj : j < e.length / p.W) :
    maskWord p e j = e.content.getD j 0 := by
  have hend : (j + 1) * p.W ≤ e.length := (Nat.le_div_iff_mul_le p.W_pos).1 hj
  have hwidth : min p.W (e.length - j * p.W) = p.W := by rw [Nat.succ_mul] at hend; omega
  rw [maskWord, hwidth, trunc, Nat.mod_eq_of_lt (content_getD_lt he j)]

/-- Of the word in which the codeword ends the low `length mod W` bits stay. -/
theorem maskWord_div (p : Params) (e : RawEntry) :
    maskWord p e (e.length / p.W) = e.content.getD (e.length / p.W) 0 % 2 ^ (e.length % p.W) := by
  rw [maskWord, ← Nat.mod_eq_sub_div_mul, Nat.min_eq_right (Nat.mod_lt _ p.W_pos).le, trunc]

/-- A word whose bits all lie at or above `length` is 0. -/
theorem maskWord_of_div_lt {p : Params} {e : RawEntry} {j : Nat} (hj : e.length / p.W < j) : maskWord p e j = 0 := by
  have hstart : e.length < j * p.W := (Nat.div_lt_iff_lt_mul p.W_pos).1 hj
  rw [maskWord, Nat.sub_eq_zero_of_le hstart.le, Nat.min_zero, trunc, Nat.pow_zero, Nat.mod_one]

/-- The first `n` words of a number, each at its weight, add up to the number below bit `n*W`. -/
theorem sum_wordSlice {W : Nat} (hW : 1 ≤ W) (V n : Nat) :
    ((List.range n).map fun j => wordSlice W V j * 2 ^ (j * W)).sum = V % 2 ^ (n * W) := by
  induction n with
  | zero => simp [Nat.mod_one]
  | succ n ih =>
    rw [List.sum_range_succ, ih, wordSlice_eq hW, Nat.succ_mul, Nat.pow_add, Nat.mod_mul, Nat.mul_comm (2 ^ (n * W))]

/-- Settles O11: the words of the mask are the words of the codeword's value, which has `length` bits and so fits in
`NW` words. -/
theorem maskedCodeword : Obligations.MaskedCodeword := by
  intro p e he _ hmax
  refine ⟨mask_length p e, fun j i hj hi => ?_, fun j hj => ?_, ?_, cwval_lt p e⟩
  · rw [mask_getD hj, maskWord_testBit]
    by_cases hlen : j * p.W + i < e.length <;> simp [hi, hlen]
  · rw [mask_getD hj]
    exact ⟨maskWord_of_lt_div he, fun h => h ▸ maskWord_div p e, maskWord_of_div_lt⟩
  · have hfits : cwval p e < 2 ^ (p.NW * p.W) :=
      (cwval_lt p e).trans_le (Nat.pow_le_pow_right (by decide) (hmax.trans (NW_mul_W_ge p)))
    have hwords : ∀ j ∈ List.range p.NW,
        (mask p e).getD j 0 * 2 ^ (j * p.W) = wordSlice p.W (cwval p e) j * 2 ^ (j * p.W) := fun j hj => by
      rw [mask_getD (List.mem_range.1 hj), maskWord_eq]
    rw [List.map_congr_left hwords, sum_wordSlice p.W_pos, Nat.mod_eq_of_lt hfits]

/-! ### The content word past the end (40_lookup.md R78) -/

theorem mword_of_lt {p : Params} {j : Nat} (hj : j < p.NW) (m : List Word) : mword p m j = m.getD j 0 := if_pos hj

theorem mword_of_ge {p : Params} {j : Nat} (hj : p.NW ≤ j) (m : List Word) : mword p m j = 0 :=
  if_neg (Nat.not_lt.2 hj)

/-- The tail index of a merge is at most `NW` (40_lookup.md R78). -/
theorem mergeCount_le_NW {p : Params} {off len : Nat} (hoff : off < p.W) (hlen : len ≤ p.MAX_BITS) :
    mergeCount p off len ≤ p.NW :=
  Nat.div_le_div_right (by omega)

theorem NW_le_mergeCount_iff (p : Params) (off len : Nat) :
    p.NW ≤ mergeCount p off len ↔ p.NW * p.W ≤ off + len :=
  Nat.le_div_iff_mul_le p.W_pos

/-- Settles O12: the tail index is at most `NW`, so it is `NW` exactly when `NW` complete words are pending. -/
theorem readPastEndIsZero : Obligations.ReadPastEndIsZero := by
  refine fun p m hm => ⟨fun j hj => ?_, fun _ hj => mword_of_ge hj m, fun off len hoff hlen => ?_⟩
  · have hjm : j < m.length := hm.symm ▸ hj
    rw [mword_of_lt hj, List.getD_eq_getElem _ _ hjm, List.getElem?_eq_getElem hjm]
  · have hle := mergeCount_le_NW hoff hlen
    exact ⟨hle, by rw [← NW_le_mergeCount_iff, hle.ge_iff_eq, eq_comm]⟩

end Sys2Proof.Machine
end

section
/-! The merge family (41_merge.md): the reject of an unassigned symbol, the loop over the running buffer, the number of
words it emits, and the accumulator after it. -/

namespace Sys2Proof.Machine

/-! ### The reject (41_merge.md R82) -/

theorem responseOf_unassigned {cfg : Config} {i : Instr} {info : BitVec 8}
    (h : responseOf cfg i = ⟨.unassignedSymbol, info⟩) : i = .merge info ∧ (tblRead cfg info).length = 0 := by
  obtain rfl : i = .merge info := by simpa [h] using eq_merge_of_responseOf (cfg := cfg) (i := i) (by rw [h])
  refine ⟨rfl, (isUnassigned_iff _).1 ?_⟩
  by_contra h0
  simp [responseOf, h0] at h

/-- Settles O20: the reject only responds, and of the responses of 42_flush_init.md R107 only that of an unassigned
merge has its status. -/
theorem unassignedMergeChangesNothing : Obligations.UnassignedMergeChangesNothing := by
  refine ⟨fun s sym h0 => execMerge_unassigned h0, fun s t i info hexec hresp => responseOf_unassigned ?_⟩
  rw [exec_resp hexec] at hresp
  exact List.singleton_inj.1 (List.append_cancel_left hresp)

/-! ### The loop (41_merge.md R84 to R86) -/

/-- The running buffer `b` of the loop: what it holds before word `w` is emitted (41_merge.md R89). -/
def runningBuffer (p : Params) (off : Nat) (m : List Word) (buf : Word) : Nat → Word
  | 0 => buf
  | w + 1 => mergeCarry p off m w

/-- The loop emits one word of each running buffer it goes through, and ends at the next one. -/
theorem mergeLoop_eq_runningBuffer (p : Params) (off : Nat) (m : List Word) (buf : Word) (k w : Nat) :
    mergeLoop p off m k w (runningBuffer p off m buf w) =
      ((List.range' w k).map fun j => mergeWord p off m j (runningBuffer p off m buf j),
        runningBuffer p off m buf (w + k)) := by
  induction k generalizing w with
  | zero => rfl
  | succ k ih =>
    have hnext : w + (k + 1) = w + 1 + k := by omega
    have hcarry : mergeCarry p off m w = runningBuffer p off m buf (w + 1) := rfl
    rw [mergeLoop, List.range'_succ, hnext]
    simp only [hcarry, ih (w + 1), List.map_cons]

@[simp] theorem mergeLoop_length (p : Params) (off : Nat) (m : List Word) (k w : Nat) (b : Word) :
    (mergeLoop p off m k w b).1.length = k := by
  induction k generalizing w b with
  | zero => rfl
  | succ k ih => rw [mergeLoop, List.length_cons, ih]

/-- The loop runs at most `NMAX` times (41_merge.md R83). -/
theorem mergeCount_le_NMAX {p : Params} {off len : Nat} (hoff : off < p.W) (hlen : len ≤ p.MAX_BITS) :
    mergeCount p off len ≤ p.NMAX :=
  Nat.div_le_div_right (by omega)

/-- Settles O13: the loop goes through the running buffers `runningBuffer`, and every other step of the pseudocode is a
step of `mergeCodeword`. -/
theorem mergeFollowsPseudocode : Obligations.MergeFollowsPseudocode := by
  intro s sym p e m off n
  refine ⟨fun h0 => execMerge_unassigned h0, fun hpos hmax => ⟨mergeCount_le_NMAX s.offset_lt hmax,
    runningBuffer p off m s.acc.buffer, rfl, fun w _ => rfl, (execMerge_assigned hpos hmax).trans ?_⟩⟩
  have hloop := mergeLoop_eq_runningBuffer p off m s.acc.buffer n 0
  rw [← List.range_eq_range', Nat.zero_add] at hloop
  refine congrArg _ (State.ext_fields rfl ?_ ?_ rfl rfl)
  · exact congrArg (fun l => Accumulator.mk (mergeTail p off m n l.2) ((off + e.length) % p.W)) hloop
  · exact congrArg (fun l => s.out ++ l.1) hloop

/-! ### The number of words (41_merge.md R83) -/

theorem mergeCodeword_out_length (len : Nat) (m : List Word) (s : State) :
    (mergeCodeword len m s).out.length = s.out.length + mergeCount s.cfg.params s.acc.offset len := by
  simp [mergeCodeword]

/-- Settles O18: the words of a merge are those of its loop, one for each iteration. -/
theorem mergeWordCount : Obligations.MergeWordCount := by
  intro s sym p e n hpos hmax
  exact ⟨_, _, execMerge_assigned hpos hmax, rfl, mergeLoop_length .., mergeCount_le_NMAX s.offset_lt hmax,
    Nat.div_eq_zero_iff_lt p.W_pos⟩

/-! ### The accumulator after a merge (41_merge.md R87, R88) -/

/-- Settles O16: the offset is a remainder, and at offset 0 the invariant leaves no pending bit. -/
theorem mergeNewOffset : Obligations.MergeNewOffset := by
  intro s sym p e off n hpos hmax ha
  have hlt := (mergeCodeword_takesIn hmax ha).acc.2
  refine ⟨_, execMerge_assigned hpos hmax, rfl, Nat.mod_lt _ p.W_pos, rfl, Nat.dvd_iff_mod_eq_zero.symm, fun h0 => ?_⟩
  have hoffset : (mergeCodeword e.length (mask p e) s).acc.offset = 0 := h0
  rw [hoffset] at hlt
  exact Nat.lt_one_iff.1 hlt

/-- What a merge leaves pending when it emits a word: the top bits of the codeword, as many as the new offset says. -/
theorem mergeCodeword_acc_of_emits {s : State} {e : RawEntry} (hmax : e.length ≤ s.cfg.params.MAX_BITS)
    (ha : AccTyped s.cfg.params s.acc) (hemits : s.cfg.params.W ≤ s.acc.offset + e.length) :
    let r := (s.acc.offset + e.length) % s.cfg.params.W
    r ≤ e.length ∧
      (mergeCodeword e.length (mask s.cfg.params e) s).acc = ⟨cwval s.cfg.params e >>> (e.length - r), r⟩ := by
  intro r
  obtain ⟨hoff, hbuf⟩ := ha
  have hsplit := Nat.div_add_mod' (s.acc.offset + e.length) s.cfg.params.W
  have hword : s.cfg.params.W ≤ (s.acc.offset + e.length) / s.cfg.params.W * s.cfg.params.W :=
    Nat.le_mul_of_pos_left _ (Nat.div_pos hemits s.cfg.params.W_pos)
  have hshift : (s.acc.offset + e.length) / s.cfg.params.W * s.cfg.params.W = s.acc.offset + (e.length - r) := by
    omega
  have hgone : s.acc.buffer / 2 ^ (s.acc.offset + (e.length - r)) = 0 :=
    Nat.div_eq_of_lt (hbuf.trans_le (Nat.pow_le_pow_right (by decide) (hshift ▸ hword)))
  have hbuffer : (s.acc.buffer ||| cwval s.cfg.params e <<< s.acc.offset) / 2 ^ (s.acc.offset + (e.length - r)) =
      cwval s.cfg.params e >>> (e.length - r) := by
    rw [Nat.or_div_two_pow, hgone, Nat.zero_or, ← Nat.shiftRight_eq_div_pow, Nat.shiftRight_add,
      Nat.shiftLeft_shiftRight]
  refine ⟨by omega, ?_⟩
  rw [mergeCodeword_eq hmax ⟨hoff, hbuf⟩, ← hbuffer, ← hshift]

/-- Below `W`, an offset adds no word to a length that is a multiple of `W`. -/
theorem mergeCount_of_dvd {p : Params} {off len : Nat} (hoff : off < p.W) (hlen : p.W ∣ len) :
    mergeCount p off len = len / p.W := by
  rw [mergeCount, Nat.add_div_of_dvd_left hlen, Nat.div_eq_of_lt hoff, Nat.zero_add]

/-- The top bits of a codeword of `k` words are those of its last word. -/
theorem cwval_shiftRight_last {p : Params} {e : RawEntry} {k x : Nat} (hk : 0 < k) (hlen : e.length = k * p.W)
    (hmax : e.length ≤ p.MAX_BITS) (hx : x ≤ p.W) :
    cwval p e >>> (e.length - x) = mword p (mask p e) (k - 1) >>> (p.W - x) := by
  obtain ⟨k, rfl⟩ := Nat.exists_eq_succ_of_ne_zero (Nat.ne_of_gt hk)
  have hlt := cwval_lt p e
  rw [hlen, Nat.succ_mul, Nat.add_comm, Nat.pow_add, ← Nat.div_lt_iff_lt_mul (Nat.two_pow_pos _)] at hlt
  rw [mword_mask hmax, Nat.succ_sub_one, wordSlice_eq p.W_pos, Nat.mod_eq_of_lt hlt, ← Nat.shiftRight_eq_div_pow,
    ← Nat.shiftRight_add, hlen, Nat.succ_mul, Nat.add_sub_assoc hx]

/-- Settles O17: the bits taken in are the codeword's, the count and the offset are those of a multiple of `W`, and the
bits left pending are the top ones of the codeword. -/
theorem mergeMultipleOfWidth : Obligations.MergeMultipleOfWidth := by
  intro s sym k p e hk hlen hmax ha
  obtain ⟨hoff, hbuf⟩ := ha
  have hdvd : p.W ∣ e.length := hlen ▸ Nat.dvd_mul_left ..
  have hW : p.W ≤ e.length := hlen ▸ Nat.le_mul_of_pos_left _ hk
  obtain ⟨ws, hout, hbits⟩ := (mergeCodeword_takesIn hmax ⟨hoff, hbuf⟩).out
  have hcount := mergeCodeword_out_length e.length (mask p e) s
  rw [hout, List.length_append, mergeCount_of_dvd hoff hdvd] at hcount
  have hoffset : (s.acc.offset + e.length) % p.W = s.acc.offset := by
    rw [Nat.add_mod, Nat.mod_eq_zero_of_dvd hdvd, Nat.add_zero, Nat.mod_mod, Nat.mod_eq_of_lt hoff]
  have hacc := (mergeCodeword_acc_of_emits hmax ⟨hoff, hbuf.trans (Nat.pow_lt_pow_right (by decide) hoff)⟩
    (hW.trans (Nat.le_add_left ..))).2
  rw [hoffset, cwval_shiftRight_last hk hlen hmax hoff.le] at hacc
  refine ⟨_, ws, execMerge_assigned (p.W_pos.trans hW) hmax, hout, Nat.add_left_cancel hcount, hoffset,
    congrArg Accumulator.buffer hacc, ?_⟩
  rw [accBits, hacc] at hbits
  rw [respond_acc, hacc]
  exact hbits

/-! ### Long codewords (41_merge.md R94) -/

theorem NMAX_eq_NW (p : Params) : p.NMAX = p.NW :=
  congrArg (· / p.W) (by have := p.W_pos; omega)

/-- Settles O19: the loop of a longest codeword counts `NMAX` words from offset `W - 1`, and from every offset where `W`
divides `MAX_BITS`; a merge that emits a word leaves top bits of the codeword only. -/
theorem longMergeKeepsTopBits : Obligations.LongMergeKeepsTopBits := by
  intro s sym p e r hpos hmax ha
  have hexec := execMerge_assigned hpos hmax
  have hcount := mergeCodeword_out_length e.length (mask p e) s
  refine ⟨fun hemits => ⟨_, hexec, mergeCodeword_acc_of_emits hmax ha hemits⟩, fun hlen hoff => ⟨_, hexec, ?_⟩,
    fun hlen hdvd => ?_⟩
  · exact hcount.trans (congrArg (s.out.length + ·) (by rw [hlen, hoff]; rfl))
  · have hn : ∀ off < p.W, mergeCount p off p.MAX_BITS = p.MAX_BITS / p.W := fun _ hoff =>
      mergeCount_of_dvd hoff hdvd
    have hNMAX : p.NMAX = p.MAX_BITS / p.W := hn (p.W - 1) (Nat.sub_lt p.W_pos Nat.one_pos)
    have hmost : mergeCount p s.acc.offset e.length = p.NMAX := by rw [hlen, hn _ ha.1, hNMAX]
    exact ⟨_, hexec, hcount.trans (congrArg _ hmost), hNMAX, hmost.trans (NMAX_eq_NW p)⟩

end Sys2Proof.Machine
end

section
/-! The flush and init family (42_flush_init.md): the whole effect of `FLUSH`, `INIT` and the reserved command, the padding
of the flushed word, and the table of what each command answers. -/

namespace Sys2Proof.Machine

open Sys2Proof.Laws.WordFields (opOf symOf)

/-! ### The initial state of the accumulator -/

theorem accInv_initial (p : Params) : AccInv p Accumulator.initial := ⟨p.W_pos, Nat.one_pos⟩

/-- Clearing an accumulator that is already in its initial state changes nothing. -/
theorem clearAcc_of_clean {s : State} (h : CleanEntry s) : clearAcc s = s :=
  State.ext_fields rfl h.symm rfl rfl rfl

/-! ### FLUSH (42_flush_init.md R98) -/

theorem exec_flush_of_offset_zero (sym : Symbol) {s : State} (h : s.acc.offset = 0) :
    exec (.flush sym) s = .next (respond .ok 0 (clearAcc s)) := by
  show execFlush sym s = _
  simp [execFlush, nothingPending, h]

theorem exec_flush_of_offset_pos (sym : Symbol) {s : State} (h : 0 < s.acc.offset) :
    exec (.flush sym) s = .next (respond .ok 0 (clearAcc (emit s.acc.buffer s))) := by
  show execFlush sym s = _
  simp [execFlush, nothingPending, Nat.ne_of_gt h]

/-- A `FLUSH` in the initial state only responds (42_flush_init.md R99). -/
theorem exec_flush_of_clean (sym : Symbol) {s : State} (h : CleanEntry s) :
    exec (.flush sym) s = .next (respond .ok 0 s) := by
  rw [exec_flush_of_offset_zero sym (congrArg Accumulator.offset h), clearAcc_of_clean h]

/-- Settles O22: with and without pending bits, `FLUSH` ends in `clearAcc` and an OK response. -/
theorem flushResult : Obligations.FlushResult := by
  refine fun s sym => ⟨?_, accInv_initial s.cfg.params⟩
  rcases Nat.eq_zero_or_pos s.acc.offset with h0 | hpos
  · rw [exec_flush_of_offset_zero sym h0]
    exact congrArg _ (State.ext_fields rfl rfl (by simp [h0]) rfl rfl)
  · rw [exec_flush_of_offset_pos sym hpos]
    exact congrArg _ (State.ext_fields rfl rfl (by simp [hpos]) rfl rfl)

/-- Settles O23: every `FLUSH` leaves the initial state, and in the initial state `FLUSH` only responds. -/
theorem flushTwiceEmitsOnce : Obligations.FlushTwiceEmitsOnce := by
  refine ⟨fun s a b => ?_, fun s a h0 => ⟨_, exec_flush_of_offset_zero a h0, rfl, rfl, rfl⟩,
    fun cfg a => exec_flush_of_clean a (powerOn_acc cfg)⟩
  obtain ⟨t, hflush, hacc⟩ := exec_flush_acc a s
  exact ⟨t, hflush, exec_flush_of_clean b hacc, hacc⟩

/-! ### The padding of the flushed word (42_flush_init.md R100) -/

theorem streamBits_eq_nil_iff {W : Nat} (hW : 1 ≤ W) (ws : List Word) : streamBits W ws = [] ↔ ws = [] := by
  cases ws with
  | nil => simp
  | cons v ws => simp [← List.length_eq_zero_iff, Nat.ne_of_gt hW]

@[simp] theorem accBits_eq_nil_iff (a : Accumulator) : accBits a = [] ↔ a.offset = 0 := by
  simp [accBits, ← List.length_eq_zero_iff]

/-- Settles O24: the flushed bits are the pending ones and the padding, so there are none exactly at offset 0, where the
padding is `W mod W` bits. -/
theorem flushPadding : Obligations.FlushPadding := by
  intro s sym ha
  obtain ⟨t, ws, hexec, hout, hbits⟩ := exec_flush_bits sym ha
  refine ⟨t, ws, hexec, hout, ?_, hbits⟩
  rw [← streamBits_eq_nil_iff s.cfg.params.W_pos, hbits, List.append_eq_nil_iff, accBits_eq_nil_iff]
  exact and_iff_left_of_imp fun h0 => by simp [h0]

/-! ### INIT and the reserved command (42_flush_init.md R103, R106) -/

theorem exec_init (sym : Symbol) (s : State) : exec (.init sym) s = .next (respond .ok 0 (clearAcc s)) := rfl

theorem exec_rsvd3 (sym : Symbol) (s : State) : exec (.rsvd3 sym) s = .next (respond .illegalCommand sym s) := rfl

theorem opOf_decode_toNat (w : CommandWord) : (opOf (decode w)).toNat = w.toNat / 256 := by
  rw [← encode_div_256, encode_decode]

theorem symOf_decode (w : CommandWord) : symOf (decode w) = BitVec.ofNat 8 (w.toNat % 256) := by
  rw [← encode_decode w, encode_mod_256, decode_encode, BitVec.ofNat_toNat, BitVec.setWidth_eq]

theorem eq_init_of_opOf {i : Instr} (h : (opOf i).toNat = 2) : i = .init (symOf i) := by
  cases i with
  | init sym => rfl
  | _ => cases h

theorem eq_rsvd3_of_opOf {i : Instr} (h : (opOf i).toNat = 3) : i = .rsvd3 (symOf i) := by
  cases i with
  | rsvd3 sym => rfl
  | _ => cases h

theorem decode_of_op_two {w : CommandWord} (h : w.toNat / 256 = 2) :
    decode w = .init (BitVec.ofNat 8 (w.toNat % 256)) := by
  rw [← symOf_decode]
  exact eq_init_of_opOf ((opOf_decode_toNat w).trans h)

theorem decode_of_op_three {w : CommandWord} (h : w.toNat / 256 = 3) :
    decode w = .rsvd3 (BitVec.ofNat 8 (w.toNat % 256)) := by
  rw [← symOf_decode]
  exact eq_rsvd3_of_opOf ((opOf_decode_toNat w).trans h)

/-- Settles O25: a word with `op = 0b10` decodes to an `INIT`, which is `clearAcc` and an OK response. -/
theorem initResult : Obligations.InitResult := by
  refine ⟨fun s sym => ⟨exec_init sym s, accInv_initial s.cfg.params⟩, rfl, fun s w hop => ?_⟩
  rw [decode_of_op_two hop]
  exact exec_init _ s

/-- Settles O26: a word with `op = 0b11` decodes to the reserved command with its low byte, which only responds. -/
theorem reservedCommandResult : Obligations.ReservedCommandResult := by
  refine ⟨fun s sym => exec_rsvd3 sym s, fun s w hop => ?_⟩
  rw [decode_of_op_three hop]
  exact exec_rsvd3 _ s

/-! ### The answers of all commands (42_flush_init.md R107) -/

/-- Settles O28: the rows are the effects of the accepted and the rejected merge, of `FLUSH` above and at offset 0, of
`INIT` and of the reserved command. -/
theorem commandAnswerTable : Obligations.CommandAnswerTable := by
  refine fun s hwf => ⟨fun sym => ⟨fun hpos => ?_, fun h0 => ?_⟩, fun sym hpos => ?_, fun sym h0 => ?_,
    fun sym => ?_, fun sym => ?_⟩
  · exact ⟨_, execMerge_assigned hpos (hwf sym), mergeCodeword_out_length .., rfl, rfl⟩
  · exact ⟨_, execMerge_unassigned h0, respond_out .., respond_acc .., respond_resp ..⟩
  · exact ⟨_, exec_flush_of_offset_pos sym hpos, rfl, rfl, rfl⟩
  · exact ⟨_, exec_flush_of_offset_zero sym h0, rfl, rfl, rfl⟩
  · exact ⟨_, exec_init sym s, rfl, rfl, rfl⟩
  · exact ⟨_, exec_rsvd3 sym s, respond_out .., respond_acc .., respond_resp ..⟩

end Sys2Proof.Machine
end

section
/-! The session family (45_session_laws.md): what a command does with the inputs presented after it, and chunking
invariance. -/

namespace Sys2Proof.Machine

/-! ### What a run takes from the inputs -/

theorem exec_inputs {i : Instr} {s t : State} (h : exec i s = .next t) : t.inputs = s.inputs := by
  rcases exec_cases h with ⟨-, -, -, rfl⟩ | ⟨-, -, -, -, rfl⟩ | ⟨-, -, -, rfl⟩ | ⟨-, -, -, rfl⟩ |
    ⟨-, -, rfl⟩ | ⟨-, -, rfl⟩ <;> rfl

/-- A step that answers has taken the next input, if there was one. -/
theorem step_inputs {s t : State} (h : step s = .next t) : t.inputs = s.inputs.tail := by
  rcases step_cases h with ⟨hin, rfl⟩ | ⟨rest, hin, rfl⟩ | ⟨w, rest, hin, hexec⟩
  · rw [hin, List.tail_nil]
  · rw [hin, List.tail_cons, clearAcc_inputs]
  · rw [hin, List.tail_cons, exec_inputs hexec]

/-- A run that answers has taken one input per step, as long as there were any. -/
theorem run_inputs {k : Nat} {s t : State} (h : run k s = .next t) : t.inputs = s.inputs.drop k := by
  induction k generalizing s with
  | zero => rw [← Host.Outcome.next.inj h, List.drop_zero]
  | succ k ih =>
    rw [run_succ] at h
    cases hstep : step s with
    | next u =>
      rw [hstep, andThen_next] at h
      rw [ih h, step_inputs hstep, List.drop_tail]
    | fault r => rw [hstep] at h; cases h
    | refused r => rw [hstep] at h; cases h

/-- A pause of any length changes nothing (log entry 6). -/
theorem run_of_inputs_nil {s : State} (h : s.inputs = []) (k : Nat) : run k s = .next s := by
  induction k with
  | zero => rfl
  | succ k ih => rw [run_succ, step_of_inputs_nil h, andThen_next, ih]

/-! ### Inputs presented later are not read before

A run that takes no more than what is already presented commutes with `deliver`. -/

section
variable (more : List Input) (s : State)

@[simp] theorem deliver_nil : deliver [] s = s := State.ext_fields rfl rfl rfl rfl (List.append_nil _)

/-- Presenting one list and then another is presenting both at once. -/
theorem deliver_deliver (xs ys : List Input) : deliver ys (deliver xs s) = deliver (xs ++ ys) s :=
  State.ext_fields rfl rfl rfl rfl (List.append_assoc ..)

@[simp] theorem emit_deliver (v : Word) : emit v (deliver more s) = deliver more (emit v s) := rfl

@[simp] theorem respond_deliver (st : Status) (info : BitVec 8) :
    respond st info (deliver more s) = deliver more (respond st info s) := rfl

@[simp] theorem clearAcc_deliver : clearAcc (deliver more s) = deliver more (clearAcc s) := rfl

@[simp] theorem mergeCodeword_deliver (len : Nat) (m : List Word) :
    mergeCodeword len m (deliver more s) = deliver more (mergeCodeword len m s) := rfl

theorem exec_deliver (i : Instr) :
    exec i (deliver more s) = andThen (exec i s) fun t => .next (deliver more t) := by
  cases i with
  | merge sym =>
    show execMerge sym _ = andThen (execMerge sym s) _
    rw [execMerge, execMerge, deliver_cfg]
    cases lookup s.cfg sym with
    | unassigned => simp
    | tooLong => rfl
    | assigned len m => simp
  | flush sym =>
    show execFlush sym _ = andThen (execFlush sym s) _
    by_cases hp : nothingPending s.acc = true
    · simp [execFlush, hp]
    · simp [execFlush, hp]
  | init sym => rfl
  | rsvd3 sym => rfl

/-- A step that has an input to take does not see what is presented after it. -/
theorem step_deliver (hne : s.inputs ≠ []) :
    step (deliver more s) = andThen (step s) fun t => .next (deliver more t) := by
  cases hin : s.inputs with
  | nil => exact absurd hin hne
  | cons x rest =>
    have hin' : (deliver more s).inputs = x :: (rest ++ more) := by
      rw [deliver_inputs, hin, List.cons_append]
    cases x with
    | reset =>
      rw [step_of_reset hin, step_of_reset hin', andThen_next]
      rfl
    | command w =>
      rw [step_of_command hin, step_of_command hin']
      exact exec_deliver more { s with inputs := rest } (decode w)

theorem run_deliver {k : Nat} (hk : k ≤ s.inputs.length) :
    run k (deliver more s) = andThen (run k s) fun t => .next (deliver more t) := by
  induction k generalizing s with
  | zero => rfl
  | succ k ih =>
    have hne : s.inputs ≠ [] := List.ne_nil_of_length_pos (Nat.zero_lt_of_lt hk)
    rw [run_succ, run_succ, step_deliver more s hne]
    cases hstep : step s with
    | next t =>
      have hkt : k ≤ t.inputs.length := by
        rw [step_inputs hstep, List.length_tail]
        exact Nat.le_sub_one_of_lt hk
      exact ih t hkt
    | fault r => rfl
    | refused r => rfl

end

/-! ### Chunking invariance (45_session_laws.md R112) -/

/-- Settles O50, by induction on the chunks: the first chunk runs without seeing the later ones, and when it is taken
nothing is presented, so the pause after it changes nothing. -/
theorem chunkingInvariance : Obligations.ChunkingInvariance := by
  intro s chunks hs
  dsimp only
  induction chunks generalizing s with
  | nil => exact congrArg _ (deliver_nil s).symm
  | cons c rest ih =>
    obtain ⟨chunk, pause⟩ := c
    have hlen : (deliver chunk s).inputs.length = chunk.length := by
      rw [deliver_inputs, hs, List.nil_append]
    rw [runChunks, List.map_cons, List.flatten_cons, List.length_append, ← deliver_deliver, run_add, run_add,
      run_deliver _ _ hlen.ge]
    cases hrun : run chunk.length (deliver chunk s) with
    | next t =>
      have ht : t.inputs = [] := by rw [run_inputs hrun, ← hlen, List.drop_length]
      simp only [andThen_next]
      rw [run_of_inputs_nil ht, andThen_next, ih t ht]
    | fault r => rfl
    | refused r => rfl

end Sys2Proof.Machine
end

section
/-! The exceptions family (60_exceptions.md): the verdict of the table check, and that a command that answers an error
has only answered. -/

namespace Sys2Proof.Machine

/-! ### The table check (60_exceptions.md R128) -/

/-- Every entry of the table is the entry of a symbol. -/
theorem tableWellFormed_iff (cfg : Config) :
    TableWellFormed cfg ↔ ∀ k < NSYM, (cfg.table.read cfg.params k).length ≤ cfg.params.MAX_BITS := by
  refine ⟨fun h k hk => ?_, fun h sym => h _ (tableIndex_lt sym)⟩
  have hsym : tableIndex (BitVec.ofNat 8 k) = k := (BitVec.toNat_ofNat k 8).trans (Nat.mod_eq_of_lt hk)
  simpa only [tblRead, hsym] using h (BitVec.ofNat 8 k)

theorem tableCheck_accepted_iff_wellFormed (cfg : Config) : tableCheck cfg = .accepted ↔ TableWellFormed cfg :=
  (tableCheck_accepted_iff cfg).trans (tableWellFormed_iff cfg).symm

/-- A refusal names the first symbol of the search. -/
theorem tableCheck_codewordTooLong_iff (cfg : Config) (k : Nat) :
    tableCheck cfg = .codewordTooLong k ↔
      k < NSYM ∧ cfg.params.MAX_BITS < (cfg.table.read cfg.params k).length ∧
        ∀ j < k, (cfg.table.read cfg.params j).length ≤ cfg.params.MAX_BITS := by
  have hfind : tableCheck cfg = .codewordTooLong k ↔ (List.range NSYM).find?
      (fun s => decide (cfg.params.MAX_BITS < (cfg.table.read cfg.params s).length)) = some k := by
    unfold tableCheck
    split
    · next hnone => simp [hnone]
    · next hsome => simp [hsome]
  rw [hfind, List.find?_range_eq_some]
  simp only [decide_eq_true_eq, List.mem_range, Bool.not_eq_true', decide_eq_false_iff_not, Nat.not_lt]
  exact and_left_comm

theorem powerOn?_of_accepted {cfg : Config} (h : tableCheck cfg = .accepted) :
    State.powerOn? cfg = .ok (State.powerOn cfg) := by
  simp [State.powerOn?, h]

theorem powerOn?_of_codewordTooLong {cfg : Config} {k : Nat} (h : tableCheck cfg = .codewordTooLong k) :
    State.powerOn? cfg = .error (.codewordTooLong k) := by
  simp [State.powerOn?, h]

/-- Start-up gives a packer exactly when the check accepts, and then the one at power-on. -/
theorem powerOn?_eq_ok_iff (cfg : Config) (s : State) :
    State.powerOn? cfg = .ok s ↔ tableCheck cfg = .accepted ∧ s = State.powerOn cfg := by
  cases h : tableCheck cfg with
  | accepted => simp [powerOn?_of_accepted h, eq_comm]
  | codewordTooLong k => simp [powerOn?_of_codewordTooLong h]

/-- Settles O9: the check searches the 256 entries in ascending order, and start-up follows its verdict. -/
theorem tableCheckVerdict : Obligations.TableCheckVerdict := by
  refine fun cfg => ⟨tableCheck_accepted_iff_wellFormed cfg, tableCheck_codewordTooLong_iff cfg, fun s => ?_,
    fun k => powerOn?_of_codewordTooLong⟩
  rw [← tableCheck_accepted_iff_wellFormed, powerOn?_eq_ok_iff]

/-! ### Errors (60_exceptions.md R134) -/

/-- A command that answers either ends with an OK response or has delivered its error and nothing else. -/
theorem exec_ok_or_eq_respond {i : Instr} {s t : State} (h : exec i s = .next t) :
    (∃ u, t = respond .ok 0 u) ∨ ∃ st info, st ≠ .ok ∧ t = respond st info s := by
  rcases exec_cases h with ⟨sym, -, -, ht⟩ | ⟨_, -, -, -, ht⟩ | ⟨_, -, -, ht⟩ | ⟨_, -, -, ht⟩ | ⟨_, -, ht⟩ |
    ⟨sym, -, ht⟩
  · exact .inr ⟨.unassignedSymbol, sym, by decide, ht⟩
  · exact .inl ⟨_, ht⟩
  · exact .inl ⟨_, ht⟩
  · exact .inl ⟨_, ht⟩
  · exact .inl ⟨_, ht⟩
  · exact .inr ⟨.illegalCommand, sym, by decide, ht⟩

/-- Settles O37: the last response is not OK, so the command is one of those that only delivered their error. -/
theorem errorsLeaveTheState : Obligations.ErrorsLeaveTheState := by
  rintro s t i h ⟨r, hr, hne⟩
  rcases exec_ok_or_eq_respond h with ⟨u, rfl⟩ | herr
  · have hok : r = ⟨.ok, 0⟩ := by simpa [eq_comm] using hr
    exact absurd (congrArg Response.status hok) hne
  · exact herr

end Sys2Proof.Machine
end

section
/-! The reset family (70_reset_and_hazards.md): the effect of the reset input, and that the packer answers its first
command after power-on and after a reset. -/

namespace Sys2Proof.Machine

/-! ### The reset input (70_reset_and_hazards.md R148) -/

/-- Settles O31: a reset is `clearAcc` of the rest of the inputs, and `INIT` is the same and then an OK response. -/
theorem resetInputEffect : Obligations.ResetInputEffect :=
  fun _ _ sym hin => ⟨step_of_reset hin, _, exec_init sym _, step_of_reset hin⟩

/-! ### The state after reset (70_reset_and_hazards.md R147) -/

/-- Over a checked table every command answers: only a `MERGE` of an entry that is too long could stop. -/
theorem exec_answers (i : Instr) {s : State} (hwf : TableWellFormed s.cfg) : ∃ t, exec i s = .next t := by
  cases i with
  | merge sym =>
    rcases Nat.eq_zero_or_pos (tblRead s.cfg sym).length with h0 | hpos
    · exact ⟨_, execMerge_unassigned h0⟩
    · exact ⟨_, execMerge_assigned hpos (hwf sym)⟩
  | flush sym => exact ⟨_, rfl⟩
  | init sym => exact ⟨_, rfl⟩
  | rsvd3 sym => exact ⟨_, rfl⟩

/-- Over a checked table a command word presented next is taken and gets one response, whatever the word is. -/
theorem step_takes_command {s : State} {w : CommandWord} {rest : List Input} (hwf : TableWellFormed s.cfg)
    (hin : s.inputs = .command w :: rest) :
    ∃ t, step s = .next t ∧ t.resp.length = s.resp.length + 1 ∧ t.inputs = rest := by
  obtain ⟨t, ht⟩ := exec_answers (decode w) (s := { s with inputs := rest }) hwf
  refine ⟨t, (step_of_command hin).trans ht, ?_, exec_inputs ht⟩
  rw [exec_resp ht, List.length_append, List.length_singleton]

/-- Settles O33: power-on and `clearAcc` put the accumulator at `(0, 0)` and keep the checked table, over which the
next command word is taken. -/
theorem resetState : Obligations.ResetState := by
  refine ⟨fun cfg => ⟨rfl, rfl⟩, fun s rest hin => ?_, fun cfg w hwf => ?_, fun s w rest hwf hin => ?_⟩
  · exact ⟨_, step_of_reset hin, rfl, rfl, rfl, rfl, rfl, rfl⟩
  · exact step_takes_command (s := deliver [.command w] (State.powerOn cfg)) hwf rfl
  · obtain ⟨t, ht, hresp, hinputs⟩ :=
      step_takes_command (s := clearAcc { s with inputs := .command w :: rest }) hwf rfl
    refine ⟨t, ?_, hresp, hinputs⟩
    rw [run_succ, step_of_reset hin, andThen_next, run_succ, ht, andThen_next, run_zero]

end Sys2Proof.Machine
end

section
/-! The other family, on single commands and runs: the encoder against the decoder and the assembler, the derived sizes,
the closed form of a merge, the invariant along a run, and packers side by side. -/

namespace Sys2Proof.Machine

/-! ### Command words (30_encoding.md sections 3 and 7) -/

/-- Settles O1: a command word is its operation selector above its symbol field, both ways. -/
theorem decodeEncodeAgree : Obligations.DecodeEncodeAgree :=
  ⟨fun i _ => decode_encode i, encode_decode⟩

/-- Settles O3: each word is a closed number, which `decode` evaluates. -/
theorem specWordsDecode : Obligations.SpecWordsDecode := by
  unfold Obligations.SpecWordsDecode
  decide

theorem decodeTableWord_of_lt {nbits w : Nat} (hw : w < 2 ^ nbits) (h : w < 1024) :
    decodeTableWord nbits w = some (decode (BitVec.ofNat 10 w)) := by
  simp [decodeTableWord, decodeRaw, Nat.mod_eq_of_lt hw, h]

theorem decodeTableWord_of_ge {nbits w : Nat} (hw : w < 2 ^ nbits) (h : 1024 ≤ w) :
    decodeTableWord nbits w = none := by
  simp [decodeTableWord, decodeRaw, Nat.mod_eq_of_lt hw, Nat.not_lt.2 h]

/-- The word placed next is the next input, and without it the state is the one it was placed in. -/
theorem step_withFetchWord (s : State) (nbits w : Nat) :
    step (s.withFetchWord nbits w) = exec (decode (BitVec.ofNat 10 (w % 2 ^ nbits))) s :=
  step_of_command (s := s.withFetchWord nbits w) rfl

/-- Settles O4: a word that fits in `nbits` bits is not changed by keeping its low `nbits` bits. -/
theorem placedWordRunsNext : Obligations.PlacedWordRunsNext := by
  refine fun s nbits w _ hw => ⟨fun h => ⟨decodeTableWord_of_lt hw h, ?_⟩, decodeTableWord_of_ge hw⟩
  rw [step_withFetchWord, Nat.mod_eq_of_lt hw]

/-- Settles O30: a command word at the head of the inputs is decoded and executed without it. -/
theorem stepRunsDecodedCommand : Obligations.StepRunsDecodedCommand := by
  rintro s w i rest hin rfl _
  exact step_of_command hin

/-- The word of a `MERGE` is its symbol, as a number (30_encoding.md R57, R59). -/
theorem encode_merge_ofNat {n : Nat} (h : n < 256) : encode (.merge (BitVec.ofNat 8 n)) = BitVec.ofNat 10 n := by
  apply BitVec.eq_of_toNat_eq
  rw [encode, toNat_append_byte, BitVec.toNat_ofNat, BitVec.toNat_ofNat, Nat.mod_eq_of_lt h,
    Nat.mod_eq_of_lt (h.trans (by decide))]
  exact Nat.zero_add n

theorem charSymbol?_of_printable {c : Char} (h : 0x20 ≤ c.toNat ∧ c.toNat < 0x7F) :
    charSymbol? c = some (BitVec.ofNat 8 c.toNat) := if_pos h

theorem encode_merge_char {c : Char} (h : 0x20 ≤ c.toNat ∧ c.toNat < 0x7F) :
    encode (.merge (BitVec.ofNat 8 c.toNat)) = BitVec.ofNat 10 c.toNat :=
  encode_merge_ofNat (h.2.trans (by decide))

/-- A `mapM` that answers at every element answers the list of its answers. -/
theorem mapM_eq_some_map {α β : Type} {f : α → Option β} {g : α → β} {l : List α} (h : ∀ a ∈ l, f a = some (g a)) :
    l.mapM f = some (l.map g) := by
  induction l with
  | nil => rfl
  | cons a l ih =>
    obtain ⟨ha, hl⟩ := List.forall_mem_cons.1 h
    simp [List.mapM_cons, ha, ih hl]

theorem assembleLine_pack {cs : List Char} (h : ∀ c ∈ cs, 0x20 ≤ c.toNat ∧ c.toNat < 0x7F) :
    assembleLine (.pack cs) = some (cs.map fun c => BitVec.ofNat 10 c.toNat) := by
  refine mapM_eq_some_map fun c hc => ?_
  rw [charSymbol?_of_printable (h c hc), Option.map_some, encode_merge_char (h c hc)]

theorem assembleLine_mergeChar {c : Char} (h : 0x20 ≤ c.toNat ∧ c.toNat < 0x7F) :
    assembleLine (.mergeChar c) = some [BitVec.ofNat 10 c.toNat] := by
  rw [assembleLine, charSymbol?_of_printable h, Option.map_some, encode_merge_char h]

/-- Settles O5: `MERGE` of a byte is the byte's word, and a text of characters is one such line per character. -/
theorem assemblerWords : Obligations.AssemblerWords := by
  refine ⟨fun n hn => ?_, fun n hn => if_pos hn, rfl, rfl, rfl, rfl, fun cs hcs => ⟨assembleLine_pack hcs, ?_⟩⟩
  · rw [assembleLine, if_pos hn, encode_merge_ofNat hn]
  · have hlines : (cs.map AsmLine.mergeChar).mapM assembleLine = some (cs.map fun c => [BitVec.ofNat 10 c.toNat]) := by
      rw [List.mapM_map]
      exact mapM_eq_some_map fun c hc => assembleLine_mergeChar (hcs c hc)
    rw [assemble, hlines, Option.map_some, ← List.flatMap_def, ← List.map_eq_flatMap]

/-! ### The derived sizes (00_scope.md section 4) -/

/-- `ceilLog2 n` is the least `k` with `n ≤ 2^k` (00_scope.md R8). -/
theorem le_two_pow_iff_ceilLog2_le (n k : Nat) : n ≤ 2 ^ k ↔ ceilLog2 n ≤ k := by
  unfold ceilLog2
  split
  · next h => exact iff_of_true (h.trans Nat.one_le_two_pow) (Nat.zero_le k)
  · next h =>
    rw [Nat.succ_le_iff, Nat.log2_lt (by omega)]
    omega

theorem NW_mul_W_lt (p : Params) : p.NW * p.W < p.MAX_BITS + p.W := by
  have hle := Nat.div_mul_le_self (p.MAX_BITS + p.W - 1) p.W
  have hW := p.W_pos
  unfold Params.NW
  omega

/-- Settles O8: `NW` and `NMAX` are the same quotient, and both widths are `ceilLog2`. -/
theorem derivedSizes : Obligations.DerivedSizes := by
  refine ⟨fun p => ⟨NMAX_eq_NW p, NW_mul_W_ge p, NW_mul_W_lt p, fun k => ?_, fun k => ?_⟩, by decide⟩
  · exact le_two_pow_iff_ceilLog2_le (p.MAX_BITS + 1) k
  · exact le_two_pow_iff_ceilLog2_le p.W k

/-! ### MERGE (41_merge.md) -/

theorem accTyped_of_accInv {p : Params} {a : Accumulator} (h : AccInv p a) : AccTyped p a :=
  ⟨h.1, h.2.trans (Nat.pow_lt_pow_right (by decide) h.1)⟩

/-- `off` pending bits followed by `len` codeword bits are a number of `off + len` bits. -/
theorem pending_eq_add {off len b C : Nat} (hb : b < 2 ^ off) (hC : C < 2 ^ len) :
    b ||| C <<< off = b + C * 2 ^ off ∧ b ||| C <<< off < 2 ^ (off + len) := by
  have hadd : b ||| C <<< off = b + C * 2 ^ off := by
    rw [← Nat.shiftLeft_eq, Nat.add_comm, Nat.shiftLeft_add_eq_or_of_lt hb, Nat.or_comm]
  refine ⟨hadd, hadd ▸ ?_⟩
  calc b + C * 2 ^ off < 2 ^ off + C * 2 ^ off := Nat.add_lt_add_right hb _
    _ = (C + 1) * 2 ^ off := by rw [Nat.succ_mul, Nat.add_comm]
    _ ≤ 2 ^ len * 2 ^ off := Nat.mul_le_mul_right _ hC
    _ = 2 ^ (off + len) := by rw [Nat.pow_add, Nat.mul_comm]

/-- Settles O14: the closed form of the loop and the tail; pending bits below `2^offset` do not overlap the codeword. -/
theorem mergeClosedForm : Obligations.MergeClosedForm := by
  intro s sym p e V n hpos hmax ha
  refine ⟨(execMerge_assigned hpos hmax).trans (congrArg _ ?_), fun hbuf => pending_eq_add hbuf (cwval_lt p e)⟩
  rw [mergeCodeword_eq hmax ha]
  exact State.ext_fields rfl (congrArg (Accumulator.mk · _) (Nat.shiftRight_eq_div_pow ..).symm) rfl rfl rfl

/-- Every command that answers keeps the accumulator's invariant: it merges a codeword, clears the accumulator or
leaves it. -/
theorem exec_accInv {i : Instr} {s t : State} (ha : AccInv s.cfg.params s.acc) (h : exec i s = .next t) :
    AccInv t.cfg.params t.acc := by
  rcases exec_cases h with ⟨_, -, -, rfl⟩ | ⟨_, -, -, hmax, rfl⟩ | ⟨_, -, -, rfl⟩ | ⟨_, -, -, rfl⟩ |
    ⟨_, -, rfl⟩ | ⟨_, -, rfl⟩
  · exact ha
  · exact (mergeCodeword_takesIn hmax ha).acc
  · exact accInv_initial s.cfg.params
  · exact accInv_initial s.cfg.params
  · exact accInv_initial s.cfg.params
  · exact ha

/-- Settles O15: a merge is a command. -/
theorem mergeKeepsAccInv : Obligations.MergeKeepsAccInv := fun _ _ _ ha h => exec_accInv ha h

/-! ### The words of a command (20_memory.md section 3) -/

/-- Settles O35: the words of a merge are those of its loop, and of the other commands only a `FLUSH` with pending bits
emits, one word. -/
theorem wordsPerCommand : Obligations.WordsPerCommand := by
  intro s t i h
  rcases exec_cases h with ⟨_, rfl, -, rfl⟩ | ⟨_, rfl, -, hmax, rfl⟩ | ⟨_, rfl, -, rfl⟩ | ⟨_, rfl, -, rfl⟩ |
    ⟨_, rfl, rfl⟩ | ⟨_, rfl, rfl⟩
  · exact ⟨[], (List.append_nil _).symm, Nat.zero_le _⟩
  · exact ⟨_, rfl, (mergeLoop_length ..).trans_le (mergeCount_le_NMAX s.offset_lt hmax)⟩
  · exact ⟨[], (List.append_nil _).symm, Nat.zero_le _⟩
  · exact ⟨[s.acc.buffer], rfl, Nat.le_refl 1⟩
  · exact ⟨[], (List.append_nil _).symm, rfl⟩
  · exact ⟨[], (List.append_nil _).symm, rfl⟩

/-- Every word a command appends is below `2^W`. -/
theorem exec_out_lt {i : Instr} {s t : State} (ha : AccInv s.cfg.params s.acc)
    (hout : ∀ v ∈ s.out, v < 2 ^ s.cfg.params.W) (h : exec i s = .next t) : ∀ v ∈ t.out, v < 2 ^ s.cfg.params.W := by
  have hacc := accTyped_of_accInv ha
  rcases exec_cases h with ⟨_, -, -, rfl⟩ | ⟨_, -, -, hmax, rfl⟩ | ⟨_, -, -, rfl⟩ | ⟨_, -, -, rfl⟩ |
    ⟨_, -, rfl⟩ | ⟨_, -, rfl⟩
  · exact hout
  · rw [respond_out, mergeCodeword_eq hmax hacc]
    exact List.forall_mem_append.2 ⟨hout, fun v => sliceWords_lt s.cfg.params.W_pos⟩
  · exact hout
  · exact List.forall_mem_append.2 ⟨hout, List.forall_mem_singleton.2 hacc.2⟩
  · exact hout
  · exact hout

/-! ### The invariant (10_state.md section 1, 30_encoding.md section 4) -/

theorem exec_inv {i : Instr} {s t : State} (hs : Inv s) (h : exec i s = .next t) : Inv t := by
  have hcfg := exec_cfg h
  refine ⟨hcfg ▸ hs.cfg, exec_accInv hs.acc h, hcfg ▸ exec_out_lt hs.acc hs.out h, ?_⟩
  rw [exec_resp h]
  exact List.forall_mem_append.2 ⟨hs.resp, List.forall_mem_singleton.2 (responseOf_legal s.cfg i)⟩

/-- Taking an input from the port does not touch the invariant. -/
theorem inv_withInputs {s : State} (hs : Inv s) (xs : List Input) : Inv { s with inputs := xs } :=
  ⟨hs.cfg, hs.acc, hs.out, hs.resp⟩

theorem inv_clearAcc {s : State} (hs : Inv s) : Inv (clearAcc s) :=
  ⟨hs.cfg, accInv_initial s.cfg.params, hs.out, hs.resp⟩

/-- Settles O39: a step waits, clears the accumulator or runs a command, each of which keeps the invariant. -/
theorem stepKeepsInv : Obligations.StepKeepsInv := by
  intro s t hs h
  rcases step_cases h with ⟨-, rfl⟩ | ⟨rest, -, rfl⟩ | ⟨w, rest, -, hexec⟩
  · exact hs
  · exact inv_clearAcc (inv_withInputs hs rest)
  · exact exec_inv (inv_withInputs hs rest) hexec

theorem inv_powerOn {cfg : Config} (h : cfg.wf = true) (xs : List Input) : Inv (deliver xs (State.powerOn cfg)) :=
  ⟨h, accInv_initial cfg.params, fun _ hv => absurd hv List.not_mem_nil, fun _ hr => absurd hr List.not_mem_nil⟩

/-- Settles O38: at power-on the accumulator is in its initial state and the histories are empty; the table of the
reset state passes the check. -/
theorem powerOnMeetsInv : Obligations.PowerOnMeetsInv :=
  ⟨fun _ xs h => inv_powerOn h xs, deliver_nil State.reset ▸ inv_powerOn (by decide) []⟩

/-! ### Stops (93_implementation_defined.md part 1, 60_exceptions.md section 1) -/

theorem execMerge_tooLong {s : State} {sym : Symbol} (h : s.cfg.params.MAX_BITS < (tblRead s.cfg sym).length) :
    execMerge sym s = .fault (.codewordTooLong sym) := by
  rcases lookup_cases s.cfg sym with ⟨h0, -⟩ | ⟨-, hl⟩ | ⟨-, hmax, -⟩
  · exact absurd h (by omega)
  · rw [execMerge, hl]
  · exact absurd h (Nat.not_lt.2 hmax)

/-- A command answers a next state, unless it merges an entry that is too long. -/
theorem exec_answers_or_faults (i : Instr) (s : State) :
    (∃ t, exec i s = .next t) ∨
    ∃ sym, i = .merge sym ∧ s.cfg.params.MAX_BITS < (tblRead s.cfg sym).length ∧
      exec i s = .fault (.codewordTooLong sym) := by
  cases i with
  | merge sym =>
    rcases lookup_cases s.cfg sym with ⟨h0, -⟩ | ⟨hlong, -⟩ | ⟨hpos, hmax, -⟩
    · exact .inl ⟨_, execMerge_unassigned h0⟩
    · exact .inr ⟨sym, rfl, hlong, execMerge_tooLong hlong⟩
    · exact .inl ⟨_, execMerge_assigned hpos hmax⟩
  | flush sym => exact .inl ⟨_, rfl⟩
  | init sym => exact .inl ⟨_, rfl⟩
  | rsvd3 sym => exact .inl ⟨_, rfl⟩

/-- Settles O21: the two kinds of outcome of a command exclude each other, and neither is a refusal. -/
theorem onlyUncheckedTablesFault : Obligations.OnlyUncheckedTablesFault := by
  refine fun s i => ⟨fun f => ⟨fun hf => ?_, ?_⟩, fun r hr => ?_⟩
  · rcases exec_answers_or_faults i s with ⟨t, ht⟩ | ⟨sym, hi, hlong, hfault⟩
    · cases ht.symm.trans hf
    · exact ⟨sym, hi, (Host.Outcome.fault.inj (hfault.symm.trans hf)).symm, hlong⟩
  · rintro ⟨sym, rfl, rfl, hlong⟩
    exact execMerge_tooLong hlong
  · rcases exec_answers_or_faults i s with ⟨t, ht⟩ | ⟨sym, -, -, hfault⟩
    · cases ht.symm.trans hr
    · cases hfault.symm.trans hr

/-- Over a checked table every step answers. -/
theorem step_answers {s : State} (hwf : TableWellFormed s.cfg) : ∃ t, step s = .next t := by
  cases hin : s.inputs with
  | nil => exact ⟨s, step_of_inputs_nil hin⟩
  | cons x rest =>
    cases x with
    | reset => exact ⟨_, step_of_reset hin⟩
    | command w =>
      rw [step_of_command hin]
      exact exec_answers (decode w) (s := { s with inputs := rest }) hwf

/-- From a state with the invariant a step answers a state with the invariant. -/
theorem inv_step_answers {s : State} (hs : Inv s) : ∃ t, step s = .next t ∧ Inv t := by
  obtain ⟨t, ht⟩ := step_answers (tableWellFormed_of_wf hs.cfg)
  exact ⟨t, ht, stepKeepsInv s t hs ht⟩

/-- Settles O40, by induction on the number of steps. -/
theorem packerNeverStops : Obligations.PackerNeverStops := by
  intro s k hs
  induction k generalizing s with
  | zero => exact ⟨s, rfl, hs⟩
  | succ k ih =>
    obtain ⟨t, ht, hinv⟩ := inv_step_answers hs
    rw [run_succ, ht, andThen_next]
    exact ih t hinv

/-- Settles O32: nothing presented, nothing changed, for as long as one likes. -/
theorem pauseChangesNothing : Obligations.PauseChangesNothing := fun _ k h => run_of_inputs_nil h k

/-! ### Several packers (60_exceptions.md section 4) -/

theorem stepInstance_of_none {j : Nat} {ss : Instances} (h : ss[j]? = none) : stepInstance j ss = .next ss := by
  simp [stepInstance, h]

theorem stepInstance_of_next {j : Nat} {ss : Instances} {s t : State} (h : ss[j]? = some s) (ht : step s = .next t) :
    stepInstance j ss = .next (ss.set j t) := by
  simp [stepInstance, h, ht]

/-- What a step of the instances that answers has done: nothing at a position without a packer, else one step of the
packer there. -/
theorem stepInstance_cases {j : Nat} {ss us : Instances} (h : stepInstance j ss = .next us) :
    (ss[j]? = none ∧ us = ss) ∨ ∃ s t, ss[j]? = some s ∧ step s = .next t ∧ us = ss.set j t := by
  cases hj : ss[j]? with
  | none =>
    rw [stepInstance_of_none hj] at h
    exact .inl ⟨rfl, (Host.Outcome.next.inj h).symm⟩
  | some s =>
    cases ht : step s with
    | next t =>
      rw [stepInstance_of_next hj ht] at h
      exact .inr ⟨s, t, rfl, ht, (Host.Outcome.next.inj h).symm⟩
    | fault r => simp [stepInstance, hj, ht] at h
    | refused r => simp [stepInstance, hj, ht] at h

theorem runSchedule_cons_of_next {j : Nat} {rest : List Nat} {ss us : Instances} (h : stepInstance j ss = .next us) :
    runSchedule (j :: rest) ss = runSchedule rest us := by
  simp [runSchedule, h]

theorem runSchedule_cons_cases {j : Nat} {rest : List Nat} {ss ts : Instances}
    (h : runSchedule (j :: rest) ss = .next ts) :
    ∃ us, stepInstance j ss = .next us ∧ runSchedule rest us = .next ts := by
  cases hstep : stepInstance j ss with
  | next us => exact ⟨us, rfl, runSchedule_cons_of_next hstep ▸ h⟩
  | fault r => simp [runSchedule, hstep] at h
  | refused r => simp [runSchedule, hstep] at h

/-- One step of the instances moves the packer at its position by one step and every other by none. -/
theorem stepInstance_getElem? {j : Nat} {ss us : Instances} (h : stepInstance j ss = .next us) {k : Nat} {s : State}
    (hk : ss[k]? = some s) : ∃ u, us[k]? = some u ∧ run ([j].count k) s = .next u := by
  by_cases hjk : j = k
  · subst hjk
    rcases stepInstance_cases h with ⟨hnone, -⟩ | ⟨s', t, hs', ht, rfl⟩
    · cases hnone.symm.trans hk
    · obtain rfl := Option.some.inj (hs'.symm.trans hk)
      have hlt := (List.getElem?_eq_some_iff.1 hk).1
      refine ⟨t, List.getElem?_set_self hlt, ?_⟩
      rw [List.count_singleton_self, run_succ, ht, andThen_next, run_zero]
  · refine ⟨s, ?_, by rw [List.count_singleton, if_neg (by simpa using hjk), run_zero]⟩
    rcases stepInstance_cases h with ⟨-, rfl⟩ | ⟨_, t, -, -, rfl⟩
    · exact hk
    · rw [List.getElem?_set_ne hjk, hk]

theorem stepInstance_length {j : Nat} {ss us : Instances} (h : stepInstance j ss = .next us) :
    us.length = ss.length := by
  rcases stepInstance_cases h with ⟨-, rfl⟩ | ⟨_, t, -, -, rfl⟩
  · rfl
  · exact List.length_set

/-- Each packer of a schedule that runs is where it comes to alone, after as many steps as its position occurs. -/
theorem runSchedule_getElem? {sched : List Nat} {ss ts : Instances} (h : runSchedule sched ss = .next ts) :
    ts.length = ss.length ∧
    ∀ (k : Nat) (s : State), ss[k]? = some s → ∃ t, ts[k]? = some t ∧ run (sched.count k) s = .next t := by
  induction sched generalizing ss with
  | nil =>
    obtain rfl := Host.Outcome.next.inj h
    exact ⟨rfl, fun k s hk => ⟨s, hk, rfl⟩⟩
  | cons j rest ih =>
    obtain ⟨us, hstep, hrest⟩ := runSchedule_cons_cases h
    obtain ⟨hlen, halone⟩ := ih hrest
    refine ⟨hlen.trans (stepInstance_length hstep), fun k s hk => ?_⟩
    obtain ⟨u, hu, hone⟩ := stepInstance_getElem? hstep hk
    obtain ⟨t, ht, hrun⟩ := halone k u hu
    refine ⟨t, ht, ?_⟩
    rw [← List.singleton_append, List.count_append, run_add, hone, andThen_next, hrun]

/-- From packers with the invariant a step of the instances answers packers with the invariant. -/
theorem stepInstance_inv (j : Nat) {ss : Instances} (hss : ∀ s ∈ ss, Inv s) :
    ∃ us, stepInstance j ss = .next us ∧ ∀ s ∈ us, Inv s := by
  cases hj : ss[j]? with
  | none => exact ⟨ss, stepInstance_of_none hj, hss⟩
  | some s =>
    obtain ⟨t, ht, hinv⟩ := inv_step_answers (hss s (List.mem_of_getElem? hj))
    refine ⟨ss.set j t, stepInstance_of_next hj ht, fun u hu => ?_⟩
    rcases List.mem_or_eq_of_mem_set hu with hmem | rfl
    · exact hss u hmem
    · exact hinv

/-- Settles O52: a step of one packer replaces its own state only, and from the invariant it answers. -/
theorem instancesIndependent : Obligations.InstancesIndependent := by
  refine ⟨fun sched ss ts => runSchedule_getElem?, fun sched ss hss => ?_⟩
  induction sched generalizing ss with
  | nil => exact ⟨ss, rfl⟩
  | cons j rest ih =>
    obtain ⟨us, hstep, hus⟩ := stepInstance_inv j hss
    rw [runSchedule_cons_of_next hstep]
    exact ih us hus

end Sys2Proof.Machine
end

section
/-! The other family, on sessions (45_session_laws.md): the state in the middle of a session, the words of a completed
one, split and abandoned sessions, rejected commands, and the round trip over a `PrefixFree` table. -/

namespace Sys2Proof.Machine

/-! ### A codeword after `L` bits

`B` holds the `L` bits taken in so far: its first `L div W` words are complete, the number above them is pending. -/

section
variable {W L B : Nat}

theorem pending_lt (hB : B < 2 ^ L) : B / 2 ^ (L / W * W) < 2 ^ (L % W) := by
  rw [Nat.div_lt_iff_lt_mul (Nat.two_pow_pos _), ← Nat.pow_add, Nat.mod_add_div']
  exact hB

theorem add_div_eq_div_add_mod (hW : 1 ≤ W) (L l : Nat) : (L + l) / W = L / W + (L % W + l) / W := by
  conv_lhs => rw [← Nat.div_add_mod L W, Nat.add_assoc, Nat.mul_add_div hW]

/-- Bits laid above bit `L` do not change the complete words. -/
theorem sliceWords_add_two_pow_mul (hW : 1 ≤ W) (hB : B < 2 ^ L) (C : Nat) :
    sliceWords W (B + 2 ^ L * C) (L / W) = sliceWords W B (L / W) := by
  refine sliceWords_congr hW fun k hk => ?_
  rw [Nat.add_comm, Nat.testBit_two_pow_mul_add _ hB, if_pos (hk.trans_le (Nat.div_mul_le_self L W))]

/-- Above the complete words stand the pending bits and then the bits laid above bit `L`. -/
theorem pending_append (hB : B < 2 ^ L) (C : Nat) :
    (B + 2 ^ L * C) / 2 ^ (L / W * W) = B / 2 ^ (L / W * W) ||| C <<< (L % W) := by
  have hpow : 2 ^ L = 2 ^ (L / W * W) * 2 ^ (L % W) := by rw [← Nat.pow_add, Nat.div_add_mod']
  rw [(pending_eq_add (pending_lt hB) C.lt_two_pow_self).1, hpow, Nat.mul_assoc,
    Nat.add_mul_div_left _ _ (Nat.two_pow_pos _), Nat.mul_comm C]

/-- The bits above all complete words after `l` more bits are those above the complete words of what was pending. -/
theorem pending_append_div (hW : 1 ≤ W) (hB : B < 2 ^ L) (C l : Nat) :
    (B + 2 ^ L * C) / 2 ^ ((L + l) / W * W) =
      (B / 2 ^ (L / W * W) ||| C <<< (L % W)) / 2 ^ ((L % W + l) / W * W) := by
  rw [← pending_append hB, Nat.div_div_eq_div_mul, ← Nat.pow_add, ← Nat.add_mul, ← add_div_eq_div_add_mod hW]

/-- The complete words after `l` more bits are those before and then those of what was pending. -/
theorem sliceWords_append (hW : 1 ≤ W) (hB : B < 2 ^ L) (C l : Nat) :
    sliceWords W (B + 2 ^ L * C) ((L + l) / W) =
      sliceWords W B (L / W) ++ sliceWords W (B / 2 ^ (L / W * W) ||| C <<< (L % W)) ((L % W + l) / W) := by
  rw [add_div_eq_div_add_mod hW, sliceWords_add hW, sliceWords_add_two_pow_mul hW hB, pending_append hB]

end

/-! ### In the middle of a session (45_session_laws.md section 1) -/

theorem acceptedSymbols_unassigned {cfg : Config} {sym : Symbol} (h : (tblRead cfg sym).length = 0) :
    acceptedSymbols cfg [.merge sym] = [] := by
  simp [acceptedSymbols, acceptedSymbol?, isUnassigned, h]

theorem acceptedSymbols_assigned {cfg : Config} {sym : Symbol} (h : 0 < (tblRead cfg sym).length) :
    acceptedSymbols cfg [.merge sym] = [sym] := by
  simp [acceptedSymbols, acceptedSymbol?, isUnassigned, Nat.ne_of_gt h]

theorem responseOf_merge_unassigned {cfg : Config} {sym : Symbol} (h : (tblRead cfg sym).length = 0) :
    responseOf cfg (.merge sym) = ⟨.unassignedSymbol, sym⟩ := if_pos ((isUnassigned_iff _).2 h)

theorem responseOf_merge_assigned {cfg : Config} {sym : Symbol} (h : 0 < (tblRead cfg sym).length) :
    responseOf cfg (.merge sym) = ⟨.ok, 0⟩ := if_neg (mt (isUnassigned_iff _).1 (Nat.ne_of_gt h))

/-- The state `s` after a session has accepted `syms` from the initial accumulator: the complete words of the session
value are emitted and the rest of it is pending. -/
def midSession (syms : List Symbol) (s : State) : State :=
  let W := s.cfg.params.W
  let L := sessionLength s.cfg syms
  let B := sessionValue s.cfg syms
  setAcc ⟨B / 2 ^ (L / W * W), L % W⟩ (emitAll (sliceWords W B (L / W)) s) (Nat.mod_lt _ s.cfg.params.W_pos)

section
variable (syms : List Symbol) (s : State)

@[simp] theorem midSession_cfg : (midSession syms s).cfg = s.cfg := rfl
theorem midSession_acc : (midSession syms s).acc =
    ⟨sessionValue s.cfg syms / 2 ^ (sessionLength s.cfg syms / s.cfg.params.W * s.cfg.params.W),
      sessionLength s.cfg syms % s.cfg.params.W⟩ := rfl
theorem midSession_out : (midSession syms s).out = s.out ++
    sliceWords s.cfg.params.W (sessionValue s.cfg syms) (sessionLength s.cfg syms / s.cfg.params.W) := rfl
@[simp] theorem midSession_resp : (midSession syms s).resp = s.resp := rfl
@[simp] theorem midSession_inputs : (midSession syms s).inputs = s.inputs := rfl

theorem midSession_accInv : AccInv s.cfg.params (midSession syms s).acc :=
  ⟨(midSession syms s).offset_lt, pending_lt (sessionValue_lt s.cfg syms)⟩

/-- A session that has accepted nothing yet. -/
theorem midSession_nil {s : State} (h : CleanEntry s) : midSession [] s = s := by
  refine State.ext_fields rfl ?_ ?_ rfl rfl
  · rw [h]; simp [midSession_acc, sessionLength, sessionValue, Accumulator.initial]
  · simp [midSession_out, sessionLength]

/-- An accepted merge adds its symbol to the session. -/
theorem mergeCodeword_midSession {sym : Symbol} (hmax : (tblRead s.cfg sym).length ≤ s.cfg.params.MAX_BITS) :
    mergeCodeword (tblRead s.cfg sym).length (mask s.cfg.params (tblRead s.cfg sym)) (midSession syms s) =
      midSession (syms ++ [sym]) s := by
  have hW := s.cfg.params.W_pos
  have hB := sessionValue_lt s.cfg syms
  have hL : sessionLength s.cfg (syms ++ [sym]) = sessionLength s.cfg syms + (tblRead s.cfg sym).length := by
    simp [sessionLength_append, sessionLength]
  have hV : sessionValue s.cfg (syms ++ [sym]) =
      sessionValue s.cfg syms + 2 ^ sessionLength s.cfg syms * cwval s.cfg.params (tblRead s.cfg sym) := by
    simp [sessionValue_append, sessionValue]
  refine (mergeCodeword_eq (s := midSession syms s) hmax (accTyped_of_accInv (midSession_accInv syms s))).trans ?_
  refine State.ext_fields rfl ?_ ?_ rfl rfl
  · rw [midSession_acc (syms ++ [sym]), hL, hV]
    exact congrArg₂ Accumulator.mk (pending_append_div hW hB _ _).symm (Nat.mod_add_mod ..)
  · rw [midSession_out (syms ++ [sym]), hL, hV, sliceWords_append hW hB, ← List.append_assoc]
    rfl

/-- A command inside a session adds the symbol it accepts, if it accepts one, and gets its response. -/
theorem exec_midSession {i : Instr} (hstay : staysInSession i = true) (hwf : TableWellFormed s.cfg) :
    exec i (midSession syms s) = .next (midSession (syms ++ acceptedSymbols s.cfg [i])
      { s with resp := s.resp ++ [responseOf s.cfg i] }) := by
  cases i with
  | merge sym =>
    rcases Nat.eq_zero_or_pos (tblRead s.cfg sym).length with h0 | hpos
    · rw [acceptedSymbols_unassigned h0, responseOf_merge_unassigned h0, List.append_nil]
      exact execMerge_unassigned (s := midSession syms s) h0
    · rw [acceptedSymbols_assigned hpos, responseOf_merge_assigned hpos]
      refine (execMerge_assigned (s := midSession syms s) hpos (hwf sym)).trans ?_
      rw [midSession_cfg, mergeCodeword_midSession syms s (hwf sym)]
      rfl
  | flush sym => cases hstay
  | init sym => cases hstay
  | rsvd3 sym =>
    have hnone : acceptedSymbols s.cfg [.rsvd3 sym] = [] := rfl
    rw [hnone, List.append_nil]
    exact exec_rsvd3 sym (midSession syms s)

end

theorem acceptedSymbols_cons (cfg : Config) (i : Instr) (is : List Instr) :
    acceptedSymbols cfg (i :: is) = acceptedSymbols cfg [i] ++ acceptedSymbols cfg is := by
  rw [← List.singleton_append, acceptedSymbols, List.filterMap_append]
  rfl

/-- The commands of a session, from a state in the middle of it. -/
theorem run_midSession (syms : List Symbol) (is : List Instr) (rest : List Input) {s : State}
    (hwf : TableWellFormed s.cfg) (hstay : ∀ i ∈ is, staysInSession i = true) (hin : s.inputs = commands is ++ rest) :
    run is.length (midSession syms s) = .next (midSession (syms ++ acceptedSymbols s.cfg is)
      { s with resp := s.resp ++ is.map (responseOf s.cfg), inputs := rest }) := by
  induction is generalizing syms s with
  | nil =>
    have hnone : acceptedSymbols s.cfg [] = [] := rfl
    rw [hnone, List.append_nil]
    exact congrArg _ (State.ext_fields rfl rfl rfl (List.append_nil _).symm hin)
  | cons i is ih =>
    obtain ⟨hi, his⟩ := List.forall_mem_cons.1 hstay
    have hexec := exec_midSession syms { s with inputs := commands is ++ rest } hi hwf
    rw [acceptedSymbols_cons s.cfg i is, ← List.append_assoc, List.map_cons, List.append_cons s.resp, List.length_cons,
      run_succ, step_of_encode (s := midSession syms s) hin]
    exact (congrArg (andThen · (run is.length)) hexec).trans
      (ih _ (s := { s with resp := s.resp ++ [responseOf s.cfg i], inputs := commands is ++ rest }) hwf his rfl)

/-- The commands of a session, from the initial accumulator. -/
theorem run_session_commands (is : List Instr) (rest : List Input) {s : State} (hwf : TableWellFormed s.cfg)
    (hclean : CleanEntry s) (hstay : ∀ i ∈ is, staysInSession i = true) (hin : s.inputs = commands is ++ rest) :
    run is.length s = .next (midSession (acceptedSymbols s.cfg is)
      { s with resp := s.resp ++ is.map (responseOf s.cfg), inputs := rest }) := by
  simpa only [midSession_nil hclean, List.nil_append] using run_midSession [] is rest hwf hstay hin

/-- Settles O43: each command of the session keeps the accumulator and the words those of the symbols accepted so
far. -/
theorem midSessionState : Obligations.MidSessionState := by
  intro s is rest hwf hclean hstay hin W syms L B
  rw [Nat.shiftRight_eq_div_pow]
  exact ⟨run_session_commands is rest hwf hclean hstay hin, pending_lt (sessionValue_lt s.cfg syms)⟩

/-! ### A completed session (45_session_laws.md section 1) -/

/-- `ceil(L / W)`: the complete words and, with bits pending, one more. -/
theorem sessionWordCount_eq (p : Params) (L : Nat) :
    sessionWordCount p L = L / p.W + if 0 < L % p.W then 1 else 0 := by
  have hW := p.W_pos
  have hsplit : L + p.W - 1 = p.W * (L / p.W) + (L % p.W + p.W - 1) := by
    have := Nat.div_add_mod L p.W
    omega
  have hmod := Nat.mod_lt L hW
  rw [sessionWordCount, hsplit, Nat.mul_add_div hW, Nat.add_left_cancel_iff]
  split
  · exact Nat.div_eq_of_lt_le (by omega) (by omega)
  · exact Nat.div_eq_of_lt (by omega)

/-- The words of a completed session: the complete words of its value and, with bits pending, the pending word. -/
theorem sessionWords_eq (cfg : Config) (syms : List Symbol) :
    let W := cfg.params.W
    let L := sessionLength cfg syms
    let B := sessionValue cfg syms
    sessionWords cfg syms = sliceWords W B (L / W) ++ if 0 < L % W then [B / 2 ^ (L / W * W)] else [] := by
  intro W L B
  have hlt : B / 2 ^ (L / W * W) < 2 ^ W :=
    (pending_lt (sessionValue_lt cfg syms)).trans (Nat.pow_lt_pow_right (by decide) (Nat.mod_lt _ cfg.params.W_pos))
  rw [sessionWords, sessionWordCount_eq]
  split
  · rw [sliceWords_succ, wordSlice_eq cfg.params.W_pos, Nat.mod_eq_of_lt hlt]
  · rw [Nat.add_zero, List.append_nil]

/-- The `FLUSH` of a session completes its words. -/
theorem exec_flush_midSession (x : Symbol) (syms : List Symbol) (s : State) :
    exec (.flush x) (midSession syms s) =
      .next (respond .ok 0 (clearAcc (emitAll (sessionWords s.cfg syms) s))) := by
  rw [sessionWords_eq]
  rcases Nat.eq_zero_or_pos (sessionLength s.cfg syms % s.cfg.params.W) with h0 | hpos
  · rw [if_neg (Nat.not_lt.2 h0.le), List.append_nil]
    exact exec_flush_of_offset_zero x (s := midSession syms s) h0
  · rw [if_pos hpos, exec_flush_of_offset_pos x (s := midSession syms s) hpos]
    exact congrArg _ (State.ext_fields rfl rfl (List.append_assoc ..) rfl rfl)

theorem commands_snoc_append (is : List Instr) (i : Instr) (rest : List Input) :
    commands (is ++ [i]) ++ rest = commands is ++ .command (encode i) :: rest := by
  simp [commands]

/-- A completed session from the initial accumulator. -/
theorem run_session (is : List Instr) (x : Symbol) (rest : List Input) {s : State} (hwf : TableWellFormed s.cfg)
    (hclean : CleanEntry s) (hstay : ∀ i ∈ is, staysInSession i = true)
    (hin : s.inputs = commands (is ++ [.flush x]) ++ rest) :
    run (is.length + 1) s = .next (clearAcc (emitAll (sessionWords s.cfg (acceptedSymbols s.cfg is))
      { s with resp := s.resp ++ is.map (responseOf s.cfg) ++ [⟨.ok, 0⟩], inputs := rest })) := by
  have hin' : s.inputs = commands is ++ .command (encode (.flush x)) :: rest := by rw [hin, commands_snoc_append]
  rw [run_add, run_session_commands is _ hwf hclean hstay hin', andThen_next, run_succ,
    step_of_encode (midSession_inputs ..)]
  exact congrArg (andThen · (run 0)) (exec_flush_midSession x (acceptedSymbols s.cfg is)
    { s with resp := s.resp ++ is.map (responseOf s.cfg), inputs := rest })

/-- Settles O44: the session's commands, then the `FLUSH` that completes its words. -/
theorem streamContract : Obligations.StreamContract := fun s is x rest hwf hclean hstay hin =>
  ⟨run_session is x rest hwf hclean hstay hin, sessionValue_lt s.cfg _⟩

/-! ### Bit counts and padding (45_session_laws.md section 2) -/

@[simp] theorem streamBits_length (W : Nat) (ws : List Word) : (streamBits W ws).length = ws.length * W := by
  induction ws with
  | nil => simp
  | cons v ws ih => simp [ih, Nat.succ_mul, Nat.add_comm]

@[simp] theorem sessionWords_length (cfg : Config) (syms : List Symbol) :
    (sessionWords cfg syms).length = sessionWordCount cfg.params (sessionLength cfg syms) := sliceWords_length ..

/-- Settles O46: the merges emit the complete words of the session, and the `FLUSH` the pending one. -/
theorem bitCountConserved : Obligations.BitCountConserved := by
  intro s is x rest hwf hclean hstay hin W L
  have hin' : s.inputs = commands is ++ .command (encode (.flush x)) :: rest := by rw [hin, commands_snoc_append]
  have hwords := sessionWords_length s.cfg (acceptedSymbols s.cfg is)
  refine ⟨_, _, run_session_commands is _ hwf hclean hstay hin', run_session is x rest hwf hclean hstay hin,
    ?_, ?_, ?_, fun hL => ?_⟩
  · rw [midSession_out, List.length_append, sliceWords_length]
  · rw [midSession_out, clearAcc_out, emitAll_out, List.length_append, List.length_append, sliceWords_length, hwords,
      sessionWordCount_eq, Nat.add_assoc]
  · rw [clearAcc_out, emitAll_out, List.drop_left, streamBits_length, hwords]
    rfl
  · have hnone : sessionWordCount s.cfg.params L = 0 := by simp [sessionWordCount_eq, hL]
    rw [clearAcc_out, emitAll_out, List.length_eq_zero_iff.1 (hwords.trans hnone), List.append_nil]

/-- A session's bit strings end to end are the bits of its value. -/
theorem sessionBits_eq_wordBits (cfg : Config) (syms : List Symbol) :
    sessionBits cfg syms = wordBits (sessionLength cfg syms) (sessionValue cfg syms) := by
  induction syms with
  | nil => rfl
  | cons sym syms ih =>
    have hvalue : sessionValue cfg (sym :: syms) =
        cwval cfg.params (tblRead cfg sym) ||| sessionValue cfg syms <<< (tblRead cfg sym).length := by
      rw [(pending_eq_add (cwval_lt ..) (sessionValue_lt cfg syms)).1, sessionValue, Nat.mul_comm]
    rw [hvalue, sessionLength, wordBits_or_shiftLeft (cwval_lt ..), ← ih, ← bitString_eq_wordBits]
    rfl

/-- The padding rounds the session length up to whole words. -/
theorem sessionWordCount_mul_W (p : Params) (L : Nat) :
    sessionWordCount p L * p.W = L + (p.W - L % p.W) % p.W := by
  have hsplit := Nat.div_add_mod' L p.W
  have hmod := Nat.mod_lt L p.W_pos
  rw [sessionWordCount_eq]
  split
  · next hpos =>
    rw [Nat.mod_eq_of_lt (Nat.sub_lt p.W_pos hpos), Nat.succ_mul]
    omega
  · next h0 =>
    have hzero : L % p.W = 0 := Nat.eq_zero_of_not_pos h0
    rw [Nat.add_zero, hzero, Nat.sub_zero, Nat.mod_self]
    omega

/-- The bits of a session's words: its bit strings end to end, then the padding. -/
theorem streamBits_sessionWords (cfg : Config) (syms : List Symbol) :
    streamBits cfg.params.W (sessionWords cfg syms) = sessionBits cfg syms ++
      List.replicate ((cfg.params.W - sessionLength cfg syms % cfg.params.W) % cfg.params.W) false := by
  rw [sessionWords, streamBits_sliceWords cfg.params.W_pos, sessionWordCount_mul_W,
    wordBits_add_of_lt (sessionValue_lt cfg syms), sessionBits_eq_wordBits]

/-! ### Split and abandoned sessions (45_session_laws.md section 3) -/

/-- At a word boundary the words of two sessions are those of one. -/
theorem sessionWords_append {cfg : Config} {a : List Symbol} (b : List Symbol)
    (h : sessionLength cfg a % cfg.params.W = 0) :
    sessionWords cfg (a ++ b) = sessionWords cfg a ++ sessionWords cfg b := by
  have hW := cfg.params.W_pos
  have hB := sessionValue_lt cfg a
  have hbound : sessionLength cfg a / cfg.params.W * cfg.params.W = sessionLength cfg a :=
    Nat.div_mul_cancel (Nat.dvd_of_mod_eq_zero h)
  have hcount : sessionWordCount cfg.params (sessionLength cfg a + sessionLength cfg b) =
      sessionLength cfg a / cfg.params.W + sessionWordCount cfg.params (sessionLength cfg b) := by
    simp only [sessionWordCount_eq, add_div_eq_div_add_mod hW (sessionLength cfg a), Nat.add_mod (sessionLength cfg a),
      h, Nat.zero_add, Nat.mod_mod, Nat.add_assoc]
  have hrest : (sessionValue cfg a + 2 ^ sessionLength cfg a * sessionValue cfg b) / 2 ^ sessionLength cfg a =
      sessionValue cfg b := by
    rw [Nat.add_mul_div_left _ _ (Nat.two_pow_pos _), Nat.div_eq_of_lt hB, Nat.zero_add]
  have hwords : sessionWords cfg a =
      sliceWords cfg.params.W (sessionValue cfg a) (sessionLength cfg a / cfg.params.W) := by
    rw [sessionWords_eq, if_neg (Nat.not_lt.2 h.le), List.append_nil]
  rw [hwords, sessionWords, sessionLength_append, sessionValue_append, hcount, sliceWords_add hW,
    sliceWords_add_two_pow_mul hW hB, hbound, hrest]
  rfl

/-- Settles O48: a completed session leaves the initial accumulator, from which the second part is a session of its
own. -/
theorem midFlushSplitsSession : Obligations.MidFlushSplitsSession := by
  intro s is js x y rest hwf hclean hstay hin W a b L
  obtain ⟨his, hjs⟩ := List.forall_mem_append.1 hstay
  have hin₁ : s.inputs = commands (is ++ [.flush x]) ++ (commands (js ++ [.flush y]) ++ rest) := by
    rw [hin]; simp [commands]
  have hsteps : is.length + js.length + 2 = (is.length + 1) + (js.length + 1) := by omega
  rw [hsteps, run_add, run_session is x _ hwf hclean his hin₁, andThen_next]
  exact ⟨_, _, run_session js y rest hwf rfl hjs rfl, List.append_assoc .., rfl, streamBits_sessionWords s.cfg a,
    fun h => (sessionWords_append b h).symm⟩

/-- Settles O49: `INIT` and reset clear the accumulator and emit nothing. -/
theorem abandonedSession : Obligations.AbandonedSession := by
  intro s is last rest hwf hclean hstay hlast hin W syms
  have hrun := run_session_commands is _ hwf hclean hstay hin
  rcases hlast with rfl | ⟨x, rfl⟩
  · rw [run_add, hrun, andThen_next, run_succ, step_of_reset (midSession_inputs ..), andThen_next]
    exact ⟨_, rfl, rfl, rfl, rfl⟩
  · rw [run_add, hrun, andThen_next, run_succ, step_of_encode (midSession_inputs ..), exec_init, andThen_next]
    exact ⟨_, rfl, rfl, rfl, rfl⟩

/-! ### Rejected commands (45_session_laws.md section 3)

What a command does to the accumulator and the words depends on neither the responses nor the inputs. -/

/-- The state with nothing handed over and nothing presented. -/
def bare (s : State) : State := { s with out := [], resp := [], inputs := [] }

theorem eq_deliver_bare (s : State) : s = deliver s.inputs (prependHistories s.out s.resp (bare s)) :=
  State.ext_fields rfl rfl (List.append_nil _).symm (List.append_nil _).symm rfl

/-- A command does what it does from the bare state, after the histories and before the inputs. -/
theorem exec_bare (i : Instr) (s : State) :
    exec i s = andThen (exec i (bare s)) fun t => .next (deliver s.inputs (prependHistories s.out s.resp t)) := by
  conv_lhs => rw [eq_deliver_bare s, exec_deliver, exec_prependHistories, andThen_assoc]
  rfl

/-- Two states with the same configuration, accumulator and words. -/
structure SamePacking (s u : State) : Prop where
  cfg : s.cfg = u.cfg
  acc : s.acc = u.acc
  out : s.out = u.out

theorem SamePacking.bare_eq {s u : State} (h : SamePacking s u) : bare s = bare u :=
  State.ext_fields h.cfg h.acc rfl rfl rfl

theorem SamePacking.withInputs {s u : State} (h : SamePacking s u) (xs ys : List Input) :
    SamePacking { s with inputs := xs } { u with inputs := ys } := ⟨h.cfg, h.acc, h.out⟩

/-- A command keeps two states the same in their packing. -/
theorem SamePacking.of_exec {i : Instr} {s u t v : State} (h : SamePacking s u) (ht : exec i s = .next t)
    (hv : exec i u = .next v) : SamePacking t v := by
  rw [exec_bare, h.bare_eq] at ht
  rw [exec_bare] at hv
  cases hr : exec i (bare u) with
  | next r =>
    rw [hr, andThen_next] at ht hv
    rw [← Host.Outcome.next.inj ht, ← Host.Outcome.next.inj hv]
    exact ⟨rfl, rfl, congrArg (· ++ r.out) h.out⟩
  | fault f => rw [hr] at ht; cases ht
  | refused f => rw [hr] at ht; cases ht

/-- A rejected command changes the responses only. -/
theorem samePacking_of_rejected {i : Instr} {s t : State} (hrej : isRejected s.cfg i = true)
    (h : exec i s = .next t) : SamePacking t s := by
  rcases exec_cases h with ⟨_, -, -, rfl⟩ | ⟨sym, rfl, hpos, -, -⟩ | ⟨_, rfl, -⟩ | ⟨_, rfl, -⟩ | ⟨_, rfl, -⟩ |
    ⟨_, -, rfl⟩
  · exact ⟨rfl, rfl, rfl⟩
  · exact absurd ((isUnassigned_iff _).1 hrej) (Nat.ne_of_gt hpos)
  · cases hrej
  · cases hrej
  · cases hrej
  · exact ⟨rfl, rfl, rfl⟩

/-- Over a checked table the next command of a list is taken and gets its response. -/
theorem step_commands_cons {i : Instr} {is : List Instr} {s : State} (hwf : TableWellFormed s.cfg)
    (hin : s.inputs = commands (i :: is)) :
    ∃ t, step s = .next t ∧ exec i { s with inputs := commands is } = .next t ∧ t.cfg = s.cfg ∧
      t.inputs = commands is ∧ t.resp = s.resp ++ [responseOf s.cfg i] := by
  obtain ⟨t, ht⟩ := exec_answers i (s := { s with inputs := commands is }) hwf
  have hcfg := exec_cfg ht
  have hresp := exec_resp ht
  exact ⟨t, (step_of_encode hin).trans ht, ht, hcfg, exec_inputs ht, hresp⟩

/-- Two states the same in their packing, one given a list of commands and one the commands of it that are not
rejected. -/
theorem run_kept (is : List Instr) {s u : State} (hwf : TableWellFormed s.cfg) (hsame : SamePacking s u)
    (hs : s.inputs = commands is) (hu : u.inputs = commands (is.filter fun i => !isRejected s.cfg i)) :
    let kept := is.filter fun i => !isRejected s.cfg i
    ∃ t v, run is.length s = .next t ∧ run kept.length u = .next v ∧ SamePacking t v ∧
      t.resp = s.resp ++ is.map (responseOf s.cfg) ∧ v.resp = u.resp ++ kept.map (responseOf s.cfg) := by
  induction is generalizing s u with
  | nil => exact ⟨s, u, rfl, rfl, hsame, (List.append_nil _).symm, (List.append_nil _).symm⟩
  | cons i is ih =>
    obtain ⟨s₁, hstep, hexec, hcfg, hs₁, hresp⟩ := step_commands_cons hwf hs
    have hresp' : ∀ rs, s₁.resp ++ rs = s.resp ++ responseOf s.cfg i :: rs := fun rs => by
      rw [hresp, List.append_assoc, List.singleton_append]
    cases hrej : isRejected s.cfg i with
    | true =>
      rw [List.filter_cons_of_neg (by simp [hrej])] at hu ⊢
      have hskip := samePacking_of_rejected (s := { s with inputs := commands is }) hrej hexec
      obtain ⟨t, v, ht, hv, htv, htr, hvr⟩ := ih (hcfg ▸ hwf)
        ⟨hskip.cfg.trans hsame.cfg, hskip.acc.trans hsame.acc, hskip.out.trans hsame.out⟩ hs₁ (hcfg ▸ hu)
      rw [hcfg] at hv htr hvr
      refine ⟨t, v, ?_, hv, htv, by rw [htr, hresp', List.map_cons], hvr⟩
      rw [List.length_cons, run_succ, hstep, andThen_next, ht]
    | false =>
      rw [List.filter_cons_of_pos (by simp [hrej])] at hu ⊢
      obtain ⟨u₁, hstepu, hexecu, -, hu₁, hrespu⟩ := step_commands_cons (hsame.cfg ▸ hwf) hu
      have hsame₁ := (hsame.withInputs _ _).of_exec hexec hexecu
      obtain ⟨t, v, ht, hv, htv, htr, hvr⟩ := ih (hcfg ▸ hwf) hsame₁ hs₁ (hcfg ▸ hu₁)
      rw [hcfg] at hv htr hvr
      refine ⟨t, v, ?_, ?_, htv, by rw [htr, hresp', List.map_cons], ?_⟩
      · rw [List.length_cons, run_succ, hstep, andThen_next, ht]
      · rw [List.length_cons, run_succ, hstepu, andThen_next, hv]
      · rw [hvr, hrespu, hsame.cfg, List.append_assoc, List.map_cons, List.singleton_append]

/-- Settles O47, by induction on the commands: a kept command does the same to both packers, and a rejected one only
responds. -/
theorem rejectedCommandsTransparent : Obligations.RejectedCommandsTransparent := by
  intro s is hwf kept
  obtain ⟨t, v, ht, hv, htv, htr, hvr⟩ :=
    run_kept is (s := { s with inputs := commands is }) (u := { s with inputs := commands kept }) hwf
      ⟨rfl, rfl, rfl⟩ rfl rfl
  exact ⟨t, v, ht, hv, htv.acc, htv.out, htr, hvr⟩

/-! ### The round trip (45_session_laws.md section 2) -/

/-- Over a `PrefixFree` table at most one assigned symbol's codeword begins given bits. -/
theorem PrefixFree.unique {cfg : Config} (h : PrefixFree cfg) {a b : Symbol} {bits : List Bool}
    (ha : isUnassigned (tblRead cfg a) = false) (hb : isUnassigned (tblRead cfg b) = false)
    (hpa : bitString cfg.params (tblRead cfg a) <+: bits) (hpb : bitString cfg.params (tblRead cfg b) <+: bits) :
    a = b := by
  rcases List.prefix_or_prefix_of_prefix hpa hpb with hab | hba
  · exact h a b ha hb (List.isPrefixOf_iff_prefix.2 hab)
  · exact (h b a hb ha (List.isPrefixOf_iff_prefix.2 hba)).symm

/-- The decoder's search goes through every symbol. -/
theorem mem_symbols (sym : Symbol) : sym ∈ (List.range NSYM).map (BitVec.ofNat 8) :=
  List.mem_map.2 ⟨sym.toNat, List.mem_range.2 sym.isLt, by simp⟩

/-- The decoder finds the symbol whose codeword comes next. -/
theorem nextSymbol?_eq_some {cfg : Config} (h : PrefixFree cfg) {sym : Symbol}
    (hsym : isUnassigned (tblRead cfg sym) = false) (rest : List Bool) :
    nextSymbol? cfg (bitString cfg.params (tblRead cfg sym) ++ rest) = some sym := by
  cases hfind : nextSymbol? cfg (bitString cfg.params (tblRead cfg sym) ++ rest) with
  | none =>
    have hnot := List.find?_eq_none.1 hfind sym (mem_symbols sym)
    simp [hsym] at hnot
  | some found =>
    have hfound := List.find?_some hfind
    simp only [Bool.and_eq_true, Bool.not_eq_true', List.isPrefixOf_iff_prefix] at hfound
    rw [h.unique hfound.1 hsym hfound.2 (List.prefix_append ..)]

/-- The decoder recovers the symbols from their bit strings end to end, whatever follows. -/
theorem decodeSymbols_sessionBits {cfg : Config} (h : PrefixFree cfg) {syms : List Symbol}
    (hsyms : ∀ sym ∈ syms, isUnassigned (tblRead cfg sym) = false) (rest : List Bool) :
    decodeSymbols cfg syms.length (sessionBits cfg syms ++ rest) = some syms := by
  induction syms with
  | nil => rfl
  | cons sym syms ih =>
    obtain ⟨hsym, hrest⟩ := List.forall_mem_cons.1 hsyms
    have hbits : sessionBits cfg (sym :: syms) ++ rest =
        bitString cfg.params (tblRead cfg sym) ++ (sessionBits cfg syms ++ rest) := List.append_assoc ..
    have hdrop := List.drop_left (l₁ := bitString cfg.params (tblRead cfg sym)) (l₂ := sessionBits cfg syms ++ rest)
    rw [bitString_length] at hdrop
    simp [decodeSymbols, hbits, nextSymbol?_eq_some h hsym, hdrop, ih hrest]

/-- A session of merges of assigned symbols accepts them all. -/
theorem acceptedSymbols_merges {cfg : Config} {syms : List Symbol}
    (h : ∀ sym ∈ syms, 0 < (tblRead cfg sym).length) : acceptedSymbols cfg (syms.map .merge) = syms := by
  induction syms with
  | nil => rfl
  | cons sym syms ih =>
    obtain ⟨hsym, hsyms⟩ := List.forall_mem_cons.1 h
    rw [List.map_cons, acceptedSymbols_cons, acceptedSymbols_assigned hsym, ih hsyms, List.singleton_append]

/-- Settles O51: the bits of the session's words begin with its codewords end to end, which the decoder takes off one by
one. -/
theorem roundTripOverPrefixCode : Obligations.RoundTripOverPrefixCode := by
  intro s syms x rest hwf hprefix hclean hassigned hin
  have hstay : ∀ i ∈ syms.map Instr.merge, staysInSession i = true := List.forall_mem_map.2 fun _ _ => rfl
  have hrun := run_session (syms.map .merge) x rest hwf hclean hstay hin
  rw [List.length_map, acceptedSymbols_merges hassigned] at hrun
  refine ⟨_, sessionWords s.cfg syms, hrun, rfl, ?_⟩
  rw [streamBits_sessionWords]
  exact decodeSymbols_sessionBits hprefix (fun sym hsym => by simp [isUnassigned, Nat.ne_of_gt (hassigned sym hsym)]) _

end Sys2Proof.Machine
end
